-- ==== Sys2Proof/Word.lean ====
section
/-! DEFINITION. The word of the machine: one byte (R10), and the index of one of the eight registers (R10, R23). -/

namespace Sys2Proof

/-- A byte, an unsigned value `0..255` (R10, R15). Every register and every memory cell holds one. -/
abbrev Byte := BitVec 8

/-- The index of a register, `0..7` (R10, R23). -/
abbrev RegIdx := Fin 8

end Sys2Proof
end

