-- ==== Sys2Proof/Machine/Flags.lean ====
section
/-! DEFINITION. The flag computation: the one flag is `E`, and CMP alone computes it (R27, R81). -/

namespace Sys2Proof.Machine

/-- `alu_eq(u, v)`: bit-for-bit equality (R78). -/
def aluEq (u v : Byte) : Bool := u == v

end Sys2Proof.Machine
end

