-- ==== Sys2Proof/Config.lean ====
section
/-! DEFINITION. What is fixed for a machine: the literals of R9 to R12, the names of the fourteen instructions (R3), and the
two parameters the spec leaves to the model (R13): `OPC` as a type of maps, `GPR_INIT` as a value. -/

namespace Sys2Proof

/-- The fourteen instructions of the catalog, by name (R3). -/
inductive Mnemonic where
  | NOP | HLT | LDI | PRN | ADD | MUL | CMP | PUSH | POP | CALL | RET | JMP | JEQ | JNE
deriving DecidableEq, Repr

/-- The four instruction formats (R51). -/
inductive Format where
  /-- the opcode alone -/
  | F0
  /-- the opcode and one register index -/
  | FR
  /-- the opcode and two register indices -/
  | FRR
  /-- the opcode, a register index and an immediate byte -/
  | FRI
deriving DecidableEq, Repr

/-- The parameter `OPC` (R13): the opcode byte of each instruction. It is an argument of the decoder, the encoder and the
step; `Sys2Proof.defaultOpc` is the assignment of R52. -/
abbrev Opc := Mnemonic → Byte

/-- `OPC` is injective: no two instructions share an opcode byte (R13, R52). -/
def Opc.Injective (opc : Opc) : Prop := ∀ m n : Mnemonic, opc m = opc n → m = n

/-- `MEM_SIZE` (R9). -/
abbrev Config.memSize : Nat := 256

/-- What a cell that nothing has written reads as: every cell is 0 at construction (R31, R35). -/
abbrev Config.unlistedByte : Byte := 0x00#8

/-- `SP_INDEX` (R11, R25). -/
abbrev Config.spIndex : RegIdx := 7

/-- `SP_INIT` (R11, R25). -/
abbrev Config.spInit : Byte := 0xF4#8

/-- The default of the parameter `GPR_INIT` (R13, R35), the construction values of R0..R6.
DESIGN CHOICE (log 1), unsafe: the spec gives none; the model names zero. Statements about construction are made for every
draw (`Machine.State.construct`) and none rests on this value. -/
def Config.gprInit : Vector Byte 7 := #v[0#8, 0#8, 0#8, 0#8, 0#8, 0#8, 0#8]

end Sys2Proof
end

