-- ==== Sys2Proof/Machine/State.lean ====
section
/-! DEFINITION. The state of the CORE (R22), the reasons a step stops, and construction (R35, R112). -/

namespace Sys2Proof.Machine

/-- The memory `mem` (R31): the cells that differ from `Config.unlistedByte`, by strictly rising address. -/
abbrev Memory := List Host.Cell

/-- The canonical form of a memory: addresses below 256, strictly rising, no cell equal to what an unlisted address reads as. -/
def Memory.wf : Memory → Bool
  | [] => true
  | (a, v) :: m =>
    decide (a < Config.memSize) && decide (v ≠ Config.unlistedByte) && (m.all fun c => decide (a < c.1)) && Memory.wf m

/-- Why a fatal abort ended the run (R95). -/
inductive AbortReason where
  /-- a memory access at an address outside `0..255`: raised by the opcode and operand fetch (R37, R63, R65) -/
  | memAddrOutOfRange (a : Nat)
  /-- a register operand byte of 8 or more (R54, R66) -/
  | regIndexOutOfRange (i : Byte)
  /-- SP arithmetic that leaves `0..255`: PUSH and CALL at SP 0, POP and RET past 255 (R83, R84, R87, R88) -/
  | spOutOfRange (t : Int)
  /-- CALL's return address does not fit a byte (R87) -/
  | returnAddrOutOfRange (v : Nat)
deriving DecidableEq, Repr

/-- The status of the execution loop (R28). -/
inductive Status where
  /-- the loop fetches the next instruction -/
  | running
  /-- stopped by HLT (R75) -/
  | halted
  /-- controlled stop: byte `op` fetched at address `at_` names no instruction (R64, R94) -/
  | haltedUnknown (op : Byte) (at_ : Nat)
  /-- fatal abort (R95). A step that aborts answers the fault `Fault.fatalAbort`, never a next state (log 7), so this value is
  what the caller is shown (`statusAfter`) and no step leads to a state that holds it. -/
  | aborted (reason : AbortReason)
deriving DecidableEq, Repr

/-- The CORE's architectural state: "exactly the following tuple" (R22). -/
structure State where
  /-- the memory (R31) -/
  mem : Memory
  /-- the register file `x[0]`..`x[7]`; `x[7]` is SP (R23 to R25) -/
  x : Vector Byte 8
  /-- the program counter, a natural number that is never reduced (R26; log 4) -/
  pc : Nat
  /-- the equal flag (R27) -/
  E : Bool
  /-- the status, the source's running-flag widened (R28) -/
  status : Status
  /-- the output stream, oldest byte first (R30) -/
  out : List Byte
deriving DecidableEq, Repr

/-- The faults of a step. -/
inductive Fault where
  /-- `raise FatalAbort(reason)` (R18, R95). Raised by the opcode and operand fetch, and by every meaning that has a register
  operand or moves SP. It carries all that stays defined after an abort: the reason (the status is `Aborted(reason)`) and the
  output emitted before the aborting instruction (R29). Safe: nothing can be proved of the registers, pc, flag and memory the
  spec leaves unspecified (log 7). -/
  | fatalAbort (reason : AbortReason) (out : List Byte)
  /-- the state is not Running and "has no step" (R19, R71). Raised by `step` alone. Safe: the stuck state of U11 (log 13). -/
  | notRunning (status : Status)
deriving DecidableEq, Repr

/-- The refusals. No step of the machine answers one. -/
inductive Refusal where
  /-- an instruction without a meaning: only an arm of `exec` may say so, and none does. Safe. -/
  | notModelled (mnemonic : String)
  /-- the loader (not the CORE) was asked to write outside `0..255`: no run starts (R113; D19, log 15). Safe. -/
  | loadAddrOutOfRange (a : Nat)
  /-- the loader was asked to write after the run had started, when "no load happens" (R114): raised by `Session.load`. Safe. -/
  | loadAfterRunStart (a : Nat)
  /-- a machine whose run has started was asked to run again; "a stopped machine is not restarted" (R116): raised by
  `Session.run`. Safe. -/
  | runAfterRunStart
deriving DecidableEq, Repr

/-- The three outcomes of a step of this machine. -/
abbrev StepOutcome := Host.Outcome State Fault Refusal

/-- Machine construction, the reset of this hardware (R35, R112), for any draw of the parameter `GPR_INIT`. -/
def State.construct (gprInit : Vector Byte 7) : State where
  mem := []
  x := gprInit.push Config.spInit
  pc := 0
  E := false
  status := .running
  out := []

/-- The machine right after construction (R112), with the model's value of `GPR_INIT` (log 1). -/
def State.reset : State := State.construct Config.gprInit

end Sys2Proof.Machine
end

