-- ==== Sys2Proof/Machine/Operands.lean ====
section
/-! DEFINITION. The operand forms: register operands, checked before the handler runs and in operand order (R54, R66, R100).
The other operand form, the LDI immediate, is the byte itself (R55). -/

namespace Sys2Proof.Machine

/-- A register operand: the whole byte is the index, with no masking (R54, R66; D2, log 3). -/
def regOperand (b : Byte) : Except AbortReason RegIdx :=
  if h : b.toNat < 8 then .ok ⟨b.toNat, h⟩ else .error (.regIndexOutOfRange b)

/-- The two register operands of format FRR, `a` checked before `b` (R66, R100). -/
def regOperands (a b : Byte) : Except AbortReason (RegIdx × RegIdx) :=
  match regOperand a with
  | .error e => .error e
  | .ok i =>
    match regOperand b with
    | .error e => .error e
    | .ok j => .ok (i, j)

end Sys2Proof.Machine
end

