-- ==== Sys2Proof/Machine/Ops.lean ====
section
/-! DEFINITION. The named operations over registers, memory, the stack pointer, the pc, the output and the status, and the two
ways an instruction stops the machine: the fatal abort (the one shared exception of this hardware, R18, R93) and the controlled
halt (R19, R94). There is no return from either (R101, R102). -/

namespace Sys2Proof.Machine

/-! ### Registers (R16, R23, R24) -/

/-- `x[i]`. -/
def State.reg (s : State) (i : RegIdx) : Byte := s.x[i]

/-- `x[i] <- v`. No register is hardwired and none is banked (R24). -/
def State.setReg (s : State) (i : RegIdx) (v : Byte) : State := { s with x := s.x.set i v }

/-- SP, which is `x[7]` (R25). -/
def State.sp (s : State) : Byte := s.reg Config.spIndex

/-- `x[7] <- v`. -/
def State.setSp (s : State) (v : Byte) : State := s.setReg Config.spIndex v

/-! ### The other elements of the state -/

/-- `pc <- p`. -/
def State.setPc (s : State) (p : Nat) : State := { s with pc := p }

/-- The default advance past an instruction of `len` bytes; it does not wrap (R67, R72; log 4). -/
def State.advance (s : State) (len : Nat) : State := s.setPc (s.pc + len)

/-- A redirect: `pc` becomes an absolute byte address (R72, R86). -/
def State.redirect (s : State) (target : Byte) : State := s.setPc target.toNat

/-- `E <- e`. -/
def State.setE (s : State) (e : Bool) : State := { s with E := e }

/-- `status <- st`. -/
def State.setStatus (s : State) (st : Status) : State := { s with status := st }

/-- `emit(v)`: append one byte to the output stream (R20, R30). -/
def State.emit (s : State) (v : Byte) : State := { s with out := s.out ++ [v] }

/-- `mem <- m`. -/
def State.setMem (s : State) (m : Memory) : State := { s with mem := m }

/-! ### Memory (R17, R37, R39) -/

/-- The byte of a cell; a cell that is not listed reads as `Config.unlistedByte`. -/
def Memory.read : Memory → Nat → Byte
  | [], _ => Config.unlistedByte
  | (b, v) :: m, a => if b = a then v else Memory.read m a

/-- Write a cell and keep the canonical form. -/
def Memory.write : Memory → Nat → Byte → Memory
  | [], a, v => if v = Config.unlistedByte then [] else [(a, v)]
  | (b, w) :: m, a, v =>
    if a < b then (if v = Config.unlistedByte then (b, w) :: m else (a, v) :: (b, w) :: m)
    else if a = b then (if v = Config.unlistedByte then m else (b, v) :: m)
    else (b, w) :: Memory.write m a v

/-- `MemRead(a, 1)`: the address decoder admits `0..255` and nothing else (R17, R37). -/
def memRead (a : Nat) (s : State) : Except AbortReason Byte :=
  if a < Config.memSize then .ok (s.mem.read a) else .error (.memAddrOutOfRange a)

/-- `MemWrite(a, 1, v)` (R17, R37). -/
def memWrite (a : Nat) (v : Byte) (s : State) : Except AbortReason State :=
  if a < Config.memSize then .ok (s.setMem (s.mem.write a v)) else .error (.memAddrOutOfRange a)

/-! ### Stack-pointer arithmetic: on integers, never reduced (spec/43_stack.md; D5, log 5) -/

/-- A result of SP arithmetic, checked to be a byte before anything uses it. -/
def spChecked (t : Int) : Except AbortReason Byte :=
  if t < 0 ∨ 255 < t then .error (.spOutOfRange t) else .ok (BitVec.ofInt 8 t)

/-- `x[7] - 1`: the cell a push writes (R83, R87). -/
def spBelow (s : State) : Except AbortReason Byte := spChecked ((s.sp.toNat : Int) - 1)

/-- `x[7] + 1`: SP after a pop (R84, R88). -/
def spAbove (s : State) : Except AbortReason Byte := spChecked ((s.sp.toNat : Int) + 1)

/-- The return address of a CALL, `pc + 2`, checked to fit a memory cell (R87; D6, log 6). -/
def returnAddress (s : State) : Except AbortReason Byte :=
  if 255 < s.pc + 2 then .error (.returnAddrOutOfRange (s.pc + 2)) else .ok (BitVec.ofNat 8 (s.pc + 2))

/-! ### Stops -/

/-- `raise FatalAbort(reason)` in an instruction that began in state `s` (R18): the run ends, and what stays defined is the
reason and the output emitted before the instruction (R29). -/
def raiseFatalAbort (reason : AbortReason) (s : State) : StepOutcome := .fault (.fatalAbort reason s.out)

/-- `halt_unknown(op, p)`: nothing but `status` changes (R19, R64, R94; D8, log 8). -/
def haltUnknown (op : Byte) (s : State) : StepOutcome := .next (s.setStatus (.haltedUnknown op s.pc))

/-- A state that is not Running has no step (R19, R71). -/
def noStep (s : State) : StepOutcome := .fault (.notRunning s.status)

/-- The end of an instruction that began in state `s`: its new state, or the fatal abort it raised (R67, R69). -/
def complete (s : State) : Except AbortReason State → StepOutcome
  | .ok t => .next t
  | .error reason => raiseFatalAbort reason s

end Sys2Proof.Machine
end

