-- ==== Sys2Proof/Machine/Alu.lean ====
section
/-! DEFINITION. The ALU and the instructions ADD, MUL, CMP (spec/42_alu.md). The set of ALU functions is closed: add, multiply
and compare (R73, R78). -/

namespace Sys2Proof.Machine

/-- `alu_add(u, v) = (u + v) mod 256` (R78). -/
def aluAdd (u v : Byte) : Byte := BitVec.ofNat 8 (u.toNat + v.toNat)

/-- `alu_mul(u, v) = (u * v) mod 256` (R78). -/
def aluMul (u v : Byte) : Byte := BitVec.ofNat 8 (u.toNat * v.toNat)

/-- ADD and MUL: `x[a] <- f(x[a], x[b])`, both read before the write (R79, R80). -/
def aluWrite (f : Byte → Byte → Byte) (a b : Byte) (s : State) : StepOutcome :=
  complete s do
    let (i, j) ← regOperands a b
    .ok ((s.setReg i (f (s.reg i) (s.reg j))).advance 3)

/-- ADD (R79). -/
def execAdd (a b : Byte) (s : State) : StepOutcome := aluWrite aluAdd a b s

/-- MUL (R80). -/
def execMul (a b : Byte) (s : State) : StepOutcome := aluWrite aluMul a b s

/-- CMP (R81). -/
def execCmp (a b : Byte) (s : State) : StepOutcome :=
  complete s do
    let (i, j) ← regOperands a b
    .ok ((s.setE (aluEq (s.reg i) (s.reg j))).advance 3)

end Sys2Proof.Machine
end

