-- ==== Sys2Proof/Machine/Control.lean ====
section
/-! DEFINITION. The instructions CALL, RET, JMP, JEQ, JNE (spec/44_control_transfer.md). -/

namespace Sys2Proof.Machine

/-- CALL (R87): the SP check, then the return-address check (R100), then the store, the SP write and the redirect, whose target
is read after the SP write (log 11). -/
def execCall (r : Byte) (s : State) : StepOutcome :=
  complete s do
    let i ← regOperand r
    let t ← spBelow s
    let ret ← returnAddress s
    let s₁ ← memWrite t.toNat ret s
    let s₂ := s₁.setSp t
    .ok (s₂.redirect (s₂.reg i))

/-- RET (R88). -/
def execRet (s : State) : StepOutcome :=
  complete s do
    let v ← memRead s.sp.toNat s
    let t ← spAbove s
    .ok ((s.redirect v).setSp t)

/-- JMP (R89). -/
def execJmp (r : Byte) (s : State) : StepOutcome :=
  complete s do
    let i ← regOperand r
    .ok (s.redirect (s.reg i))

/-- The conditional redirect of JEQ and JNE: the register operand is checked whether or not the branch is taken (R66, R90). -/
def branchIf (taken : Bool) (r : Byte) (s : State) : StepOutcome :=
  complete s do
    let i ← regOperand r
    .ok (if taken then s.redirect (s.reg i) else s.advance 2)

/-- JEQ (R90). -/
def execJeq (r : Byte) (s : State) : StepOutcome := branchIf s.E r s

/-- JNE (R91). -/
def execJne (r : Byte) (s : State) : StepOutcome := branchIf (!s.E) r s

end Sys2Proof.Machine
end

