-- ==== Sys2Proof/Machine/DataIo.lean ====
section
/-! DEFINITION. The instructions NOP, HLT, LDI, PRN (spec/41_data_and_io.md). -/

namespace Sys2Proof.Machine

/-- NOP (R74). -/
def execNop (s : State) : StepOutcome := complete s (.ok (s.advance 1))

/-- HLT: the pc advances and the machine is then halted (R75). -/
def execHlt (s : State) : StepOutcome := complete s (.ok ((s.advance 1).setStatus .halted))

/-- LDI (R76). -/
def execLdi (r imm : Byte) (s : State) : StepOutcome :=
  complete s do
    let i ← regOperand r
    .ok ((s.setReg i imm).advance 3)

/-- PRN: one byte to the output sink, which accepts every transaction (R77, R105). -/
def execPrn (r : Byte) (s : State) : StepOutcome :=
  complete s do
    let i ← regOperand r
    .ok ((s.emit (s.reg i)).advance 2)

end Sys2Proof.Machine
end

