-- ==== Sys2Proof/Machine/Stack.lean ====
section
/-! DEFINITION. The instructions PUSH and POP (spec/43_stack.md). The statements run in the order of the rule's pseudocode, each
on the state the earlier ones left (R21), which is what PUSH R7 and POP R7 show (log 11). -/

namespace Sys2Proof.Machine

/-- PUSH (R83): SP is decremented first, then `x[r]` is read and stored. -/
def execPush (r : Byte) (s : State) : StepOutcome :=
  complete s do
    let i ← regOperand r
    let t ← spBelow s
    let s₁ := s.setSp t
    let s₂ ← memWrite t.toNat (s₁.reg i) s₁
    .ok (s₂.advance 2)

/-- POP (R84): `x[r]` is written first, then SP is read and incremented. -/
def execPop (r : Byte) (s : State) : StepOutcome :=
  complete s do
    let i ← regOperand r
    let v ← memRead s.sp.toNat s
    let s₁ := s.setReg i v
    let t ← spAbove s₁
    .ok ((s₁.setSp t).advance 2)

end Sys2Proof.Machine
end

