-- ==== Sys2Proof/Syntax.lean ====
section
/-! DEFINITION. The instructions as data: one constructor per row of spec/opcode_table.json (R3, R51). A register operand is
the whole operand byte (R54); whether it names a register is `Instr.WellFormed`. -/

namespace Sys2Proof

/-- An instruction with its operand bytes (R51). -/
inductive Instr where
  /-- NOP (R74) -/
  | nop
  /-- HLT (R75) -/
  | hlt
  /-- LDI reg, value (R76) -/
  | ldi (r imm : Byte)
  /-- PRN reg (R77) -/
  | prn (r : Byte)
  /-- ADD regA, regB (R79) -/
  | add (a b : Byte)
  /-- MUL regA, regB (R80) -/
  | mul (a b : Byte)
  /-- CMP regA, regB (R81) -/
  | cmp (a b : Byte)
  /-- PUSH reg (R83) -/
  | push (r : Byte)
  /-- POP reg (R84) -/
  | pop (r : Byte)
  /-- CALL reg (R87) -/
  | call (r : Byte)
  /-- RET (R88) -/
  | ret
  /-- JMP reg (R89) -/
  | jmp (r : Byte)
  /-- JEQ reg (R90) -/
  | jeq (r : Byte)
  /-- JNE reg (R91) -/
  | jne (r : Byte)
deriving DecidableEq, Repr

end Sys2Proof
end

