-- ==== Sys2Proof/WellFormed.lean ====
section
/-! DEFINITION. Which instructions are well formed: every register operand byte names a register (R54, R58). -/

namespace Sys2Proof

/-- The register operand bytes of an instruction, in the order R66 checks them. The immediate of LDI is none (R55, R66). -/
def Instr.regOperands : Instr → List Byte
  | .nop | .hlt | .ret => []
  | .ldi r _ => [r]
  | .prn r | .push r | .pop r | .call r | .jmp r | .jeq r | .jne r => [r]
  | .add a b | .mul a b | .cmp a b => [a, b]

/-- "The values 0..7 are valid" (R54); every LDI immediate is (R55, R58). -/
def Instr.wellFormed (i : Instr) : Bool := i.regOperands.all fun r => decide (r.toNat < 8)

/-- `Instr.wellFormed` as a proposition. -/
abbrev Instr.WellFormed (i : Instr) : Prop := i.wellFormed = true

end Sys2Proof
end

