-- ==== Sys2Proof/Decode.lean ====
section
/-! DEFINITION. The instruction decoder and, after it, the encoder (spec/30_encoding.md; R64, R65). Both take the parameter
`OPC` (R13). The decoder is total on any bytes and rejects by name; it accepts every operand byte, because the check of
register operands is a later stage of the step (R66, R69) and is made by the meanings (`Machine.regOperand`; log 19). -/

namespace Sys2Proof

/-- The default opcode assignment (R52). PRESUMED (log 2), unsafe: the spec takes the byte values from general knowledge. -/
def defaultOpc : Opc
  | .NOP => 0x00#8
  | .HLT => 0x01#8
  | .LDI => 0x82#8
  | .PRN => 0x47#8
  | .ADD => 0xA0#8
  | .MUL => 0xA2#8
  | .CMP => 0xA7#8
  | .PUSH => 0x45#8
  | .POP => 0x46#8
  | .CALL => 0x50#8
  | .RET => 0x11#8
  | .JMP => 0x54#8
  | .JEQ => 0x55#8
  | .JNE => 0x56#8

/-- All fourteen, in the order of R3. -/
def Mnemonic.catalog : List Mnemonic :=
  [.NOP, .HLT, .LDI, .PRN, .ADD, .MUL, .CMP, .PUSH, .POP, .CALL, .RET, .JMP, .JEQ, .JNE]

/-- The format of each instruction (R51, R52). -/
def Mnemonic.format : Mnemonic → Format
  | .NOP | .HLT | .RET => .F0
  | .PRN | .PUSH | .POP | .CALL | .JMP | .JEQ | .JNE => .FR
  | .ADD | .MUL | .CMP => .FRR
  | .LDI => .FRI

/-- The operand count `n` of a format (R12, R51). -/
def Format.operandCount : Format → Nat
  | .F0 => 0
  | .FR => 1
  | .FRR | .FRI => 2

/-- The operand count `n` of an instruction (R52). -/
def Mnemonic.operandCount (m : Mnemonic) : Nat := m.format.operandCount

/-- The length of an instruction, `1 + n` bytes (R12, R56). -/
def Mnemonic.length (m : Mnemonic) : Nat := 1 + m.operandCount

/-- Dispatch: look the opcode byte up in the catalog, the whole byte (R53, R64). -/
def lookupOpcode (opc : Opc) (op : Byte) : Option Mnemonic :=
  Mnemonic.catalog.find? fun m => opc m == op

/-- The instruction of a catalog entry with its operand bytes; an operand the format does not have is ignored (R51). -/
def Mnemonic.build : Mnemonic → Byte → Byte → Instr
  | .NOP, _, _ => .nop
  | .HLT, _, _ => .hlt
  | .LDI, b1, b2 => .ldi b1 b2
  | .PRN, b1, _ => .prn b1
  | .ADD, b1, b2 => .add b1 b2
  | .MUL, b1, b2 => .mul b1 b2
  | .CMP, b1, b2 => .cmp b1 b2
  | .PUSH, b1, _ => .push b1
  | .POP, b1, _ => .pop b1
  | .CALL, b1, _ => .call b1
  | .RET, _, _ => .ret
  | .JMP, b1, _ => .jmp b1
  | .JEQ, b1, _ => .jeq b1
  | .JNE, b1, _ => .jne b1

/-- Why the decoder gives no instruction. -/
inductive DecodeReject (ε : Type) where
  /-- a byte of the instruction could not be read -/
  | unreadable (why : ε)
  /-- the first byte is no opcode of the catalog (R57, R64) -/
  | unknownOpcode (op : Byte)
deriving DecidableEq, Repr

/-- Operand byte `k`, read only if the instruction has it (R65: "exactly `n` operand bytes"). -/
def operandByte {ε : Type} (read : Nat → Except ε Byte) (n k : Nat) : Except ε Byte :=
  if k ≤ n then read k else .ok 0#8

/-- The decoder, over any way to read the byte at offset `k` from the opcode (R63 to R65): the opcode, then the catalog, then
exactly the operand bytes the entry has, in ascending order. -/
def decodeBy {ε : Type} (opc : Opc) (read : Nat → Except ε Byte) : Except (DecodeReject ε) Instr :=
  match read 0 with
  | .error e => .error (.unreadable e)
  | .ok op =>
    match lookupOpcode opc op with
    | none => .error (.unknownOpcode op)
    | some m =>
      match operandByte read m.operandCount 1 with
      | .error e => .error (.unreadable e)
      | .ok b1 =>
        match operandByte read m.operandCount 2 with
        | .error e => .error (.unreadable e)
        | .ok b2 => .ok (m.build b1 b2)

/-- The mnemonic of an instruction. -/
def Instr.mnemonic : Instr → Mnemonic
  | .nop => .NOP
  | .hlt => .HLT
  | .ldi _ _ => .LDI
  | .prn _ => .PRN
  | .add _ _ => .ADD
  | .mul _ _ => .MUL
  | .cmp _ _ => .CMP
  | .push _ => .PUSH
  | .pop _ => .POP
  | .call _ => .CALL
  | .ret => .RET
  | .jmp _ => .JMP
  | .jeq _ => .JEQ
  | .jne _ => .JNE

/-- The operand bytes of an instruction, in the order they follow the opcode (R50, R51). -/
def Instr.operands : Instr → List Byte
  | .nop | .hlt | .ret => []
  | .prn r | .push r | .pop r | .call r | .jmp r | .jeq r | .jne r => [r]
  | .add a b | .mul a b | .cmp a b => [a, b]
  | .ldi r imm => [r, imm]

/-- The byte at offset `k` of a list of bytes; past its end the read names the offset. -/
def readList (l : List Byte) (k : Nat) : Except Nat Byte :=
  match l[k]? with
  | some b => .ok b
  | none => .error k

/-- The decoder on a list of bytes: the instruction at its head and the bytes after it. -/
def decodeWith (opc : Opc) (l : List Byte) : Except (DecodeReject Nat) (Instr × List Byte) :=
  match decodeBy opc (readList l) with
  | .ok i => .ok (i, l.drop i.mnemonic.length)
  | .error e => .error e

/-- The decoder with the default opcodes (R52). -/
def decode (l : List Byte) : Except (DecodeReject Nat) (Instr × List Byte) := decodeWith defaultOpc l

/-- The encoder: the opcode byte, then the operand bytes (R50, R51, R60). -/
def encodeWith (opc : Opc) (i : Instr) : List Byte := opc i.mnemonic :: i.operands

/-- The encoder with the default opcodes (R52). -/
def encode (i : Instr) : List Byte := encodeWith defaultOpc i

/-- The first three bytes (the longest instruction, R12) of the number `w`, least significant byte first, the bits at and above
`nbits` taken as zero. -/
def tableBytes (nbits w : Nat) : List Byte :=
  let v := w % 2 ^ nbits
  [BitVec.ofNat 8 v, BitVec.ofNat 8 (v / 2 ^ 8), BitVec.ofNat 8 (v / 2 ^ 16)]

/-- What the decoder reads from an instruction whose bits are `w`, numbered as spec/opcode_table.json numbers them: the opcode
byte is bits 7..0, operand byte 1 bits 15..8, operand byte 2 bits 23..16. -/
def decodeTableWord (nbits w : Nat) : Option Instr :=
  match decode (tableBytes nbits w) with
  | .ok (i, _) => some i
  | .error _ => none

end Sys2Proof
end

