-- ==== Sys2Proof/Machine/Fetch.lean ====
section
/-! DEFINITION. The instruction fetch unit (spec/40_execution_loop.md): the decoder reading memory at the pc. -/

namespace Sys2Proof.Machine

/-- Fetch and decode the instruction at the pc (R63 to R65): byte `k` is read at `pc + k`, relative to the unchanged pc. -/
def fetchWith (opc : Opc) (s : State) : Except (DecodeReject AbortReason) Instr :=
  decodeBy opc fun k => memRead (s.pc + k) s

/-- Store the bytes `l` at ascending addresses from `a`. -/
def storeBytes : List Byte → Nat → Memory → Memory
  | [], _, m => m
  | b :: l, a, m => storeBytes l (a + 1) (m.write a b)

/-- Where `State.withFetchWord` puts an instruction: at the pc, or at 0 where the longest instruction would not fit there. -/
def fetchSlot (s : State) : Nat := if s.pc + 3 ≤ Config.memSize then s.pc else 0

/-- `s`, made ready to fetch the instruction whose bits are `w` (numbered as `decodeTableWord` numbers them): its bytes stand at
the pc and the status is Running. The pc moves, to 0, only where three bytes do not fit at it (log 14). -/
def placeFetchWord (s : State) (nbits w : Nat) : State :=
  { s with
    mem := storeBytes (tableBytes nbits w) (fetchSlot s) s.mem
    pc := fetchSlot s
    status := .running }

end Sys2Proof.Machine
end

