-- ==== Sys2Proof/Machine/Step.lean ====
section
/-! DEFINITION. One step (R69) and the state made ready to fetch a given instruction. -/

namespace Sys2Proof.Machine

/-- One step, complete (R69), for any opcode assignment: fetch and decode, then the handler; an unknown opcode is a controlled
halt, an address out of range in the fetch a fatal abort, and a machine that is not Running has no step (R71). -/
def stepWith (opc : Opc) (s : State) : Host.Outcome State Fault Refusal :=
  match s.status with
  | .running =>
    match fetchWith opc s with
    | .ok i => exec i s
    | .error (.unknownOpcode op) => haltUnknown op s
    | .error (.unreadable reason) => raiseFatalAbort reason s
  | .halted => noStep s
  | .haltedUnknown _ _ => noStep s
  | .aborted _ => noStep s

/-- One step with the default opcodes (R52, R69). -/
def step (s : State) : Host.Outcome State Fault Refusal := stepWith defaultOpc s

/-- `s` made ready so that the next step fetches the instruction `w` (see `placeFetchWord`). -/
def State.withFetchWord (s : State) (nbits w : Nat) : State := placeFetchWord s nbits w

end Sys2Proof.Machine
end

