-- ==== Sys2Proof/Machine/Run.lean ====
section
/-! DEFINITION. The execution loop (R62), the loader's writes (R113), the status interface (R111) and the read-only trace (R108):
the CORE's side of every interface the spec names (D16). -/

namespace Sys2Proof.Machine

/-- The execution loop for at most `fuel` steps (R62): it steps while Running, and returns the state in which it stops, the fault
that ended it, or, out of fuel, the state it has reached. -/
def runWith (opc : Opc) : Nat → State → StepOutcome
  | 0, s => .next s
  | fuel + 1, s =>
    match s.status with
    | .running =>
      match stepWith opc s with
      | .next t => runWith opc fuel t
      | .fault f => .fault f
      | .refused r => .refused r
    | .halted => .next s
    | .haltedUnknown _ _ => .next s
    | .aborted _ => .next s

/-- What `load(a, v)` does to the CORE's state (R113): it writes memory and nothing else, and an address past 255 is refused
(D19, log 15). State holds nothing that tells whether the run has started (R22), so WHEN a load is admitted is said by the port
itself, `Session.load` (R114). -/
def loadByte (a : Nat) (v : Byte) (s : State) : StepOutcome :=
  if a < Config.memSize then .next (s.setMem (s.mem.write a v)) else .refused (.loadAddrOutOfRange a)

/-- Load bytes at increasing addresses from `a` (R113). -/
def loadFrom (a : Nat) : List Byte → State → StepOutcome
  | [], s => .next s
  | b :: l, s =>
    match loadByte a b s with
    | .next t => loadFrom (a + 1) l t
    | .fault f => .fault f
    | .refused r => .refused r

/-- What loading a program image "at increasing addresses starting from 0" does to the CORE's state (R113). -/
def loadImage (image : List Byte) (s : State) : StepOutcome := loadFrom 0 image s

/-- The code of a stop on the status interface (R95, R111; D9, log 16). -/
def Status.code : Status → Nat
  | .running => 0
  | .halted => 1
  | .haltedUnknown _ _ => 2
  | .aborted (.memAddrOutOfRange _) => 3
  | .aborted (.regIndexOutOfRange _) => 4
  | .aborted (.spOutOfRange _) => 5
  | .aborted (.returnAddrOutOfRange _) => 6

/-- The values recorded with the code, in the order of R111. -/
def Status.recorded : Status → List Int
  | .running => []
  | .halted => []
  | .haltedUnknown op at_ => [op.toNat, at_]
  | .aborted (.memAddrOutOfRange a) => [a]
  | .aborted (.regIndexOutOfRange i) => [i.toNat]
  | .aborted (.spOutOfRange t) => [t]
  | .aborted (.returnAddrOutOfRange v) => [v]

/-- The status of the machine after an outcome (R18, R28): a fatal abort has set it to `Aborted(reason)`; a state without a step
keeps its own; a refused load starts no run and presents none. -/
def statusAfter : StepOutcome → Option Status
  | .next s => some s.status
  | .fault (.fatalAbort reason _) => some (.aborted reason)
  | .fault (.notRunning st) => some st
  | .refused _ => none

/-- The output emitted by the end of an outcome: it stays defined after every kind of stop (R29). -/
def outputAfter : StepOutcome → Option (List Byte)
  | .next s => some s.out
  | .fault (.fatalAbort _ out) => some out
  | .fault (.notRunning _) => none
  | .refused _ => none

/-- A status as the caller is shown it at return, its code and recorded values (R111); code 0 is "never presented at return, since
the run returns only on a stop". -/
def Status.present (st : Status) : Option (Nat × List Int) := if st = .running then none else some (st.code, st.recorded)

/-- A byte as the trace shows it: past address 255 there is none, and the observer must not fault (R108, D18, log 21). -/
def traceByte (s : State) (a : Nat) : Option Byte := if a < Config.memSize then some (s.mem.read a) else none

/-- One entry of the trace: the pc, the next three memory bytes, the eight registers. -/
abbrev TraceEntry := Nat × List (Option Byte) × List Byte

/-- The optional diagnostic view (R108). "The next three memory bytes" are those after the fetched opcode, at `pc + 1` to `pc + 3`:
the three of which D18 says that at `pc >= 253` they would run past 255 (log 21). It changes nothing. -/
def traceView (s : State) : TraceEntry :=
  (s.pc, [traceByte s (s.pc + 1), traceByte s (s.pc + 2), traceByte s (s.pc + 3)], s.x.toList)

/-- What the hook reports of one step: an entry after the opcode fetch (R108), none where there is no such fetch. -/
def traceFetch (s : State) : List TraceEntry := if s.status = .running ∧ s.pc < Config.memSize then [traceView s] else []

/-- What the hook reports of a run of at most `fuel` steps, oldest entry first: an observer beside the run, which it does not enter
(R108). -/
def traceRun (opc : Opc) : Nat → State → List TraceEntry
  | 0, _ => []
  | fuel + 1, s =>
    traceFetch s ++
      match stepWith opc s with
      | .next t => traceRun opc fuel t
      | .fault _ => []
      | .refused _ => []

/-- An outcome with its next state, if it has one, changed by `f`. -/
def mapNext {σ τ : Type} (f : σ → τ) : Host.Outcome σ Fault Refusal → Host.Outcome τ Fault Refusal
  | .next t => .next (f t)
  | .fault e => .fault e
  | .refused r => .refused r

end Sys2Proof.Machine
end

