-- ==== Sys2Proof/Machine/Session.lean ====
section
/-! DEFINITION. The machine as its caller uses it: the transactions `construct`, `load(a, v)` and `run()` (D16) and which of them is
admitted when (R112 to R114, R116). The phase is the caller's side, not architectural state, which R22 closes. -/

namespace Sys2Proof.Machine

/-- A machine between its construction and its end. -/
inductive Session where
  /-- constructed, its run not started: the loader may write (R113) -/
  | loading (s : State)
  /-- `run()` was called: the execution loop alone owns the state (R114), and there is no second run (R116) -/
  | started (s : State)
deriving DecidableEq, Repr

/-- What a transaction answers: the session after it; the fatal abort that ended the run; or a refusal. -/
abbrev SessionOutcome := Host.Outcome Session Fault Refusal

/-- `construct`, once per machine (R112), for a draw of `GPR_INIT`. -/
def Session.construct (gprInit : Vector Byte 7) : Session := .loading (State.construct gprInit)

/-- `load(a, v)`, "between construction and the start of the run" (R113): "no load happens once the run has started" (R114). -/
def Session.load (a : Nat) (v : Byte) : Session → SessionOutcome
  | .loading s => mapNext .loading (loadByte a v s)
  | .started _ => .refused (.loadAfterRunStart a)

/-- `run()`: the execution loop (R62) "from the state left by construction and loading" (R114), seen after at most `fuel` steps. A
machine that has run is not run again (R116, D20). -/
def Session.run (opc : Opc) (fuel : Nat) : Session → SessionOutcome
  | .loading s => mapNext .started (runWith opc fuel s)
  | .started _ => .refused .runAfterRunStart

/-- What the outside asks of a constructed machine: every transaction of D16 after `construct` that has an effect. -/
inductive Request where
  /-- the loader's port (R113) -/
  | load (a : Nat) (v : Byte)
  /-- the start of the run, followed for at most `fuel` steps (R114) -/
  | run (fuel : Nat)
deriving DecidableEq, Repr

/-- One transaction. -/
def Session.request (opc : Opc) (ss : Session) : Request → SessionOutcome
  | .load a v => ss.load a v
  | .run fuel => ss.run opc fuel

/-- Transactions one after another; the first that is refused, or that a fatal abort ends, ends them. -/
def Session.requests (opc : Opc) : List Request → Session → SessionOutcome
  | [], ss => .next ss
  | q :: l, ss =>
    match ss.request opc q with
    | .next t => Session.requests opc l t
    | .fault f => .fault f
    | .refused r => .refused r

/-- The loader's writes of the bytes `l` "at increasing addresses" from `a` (R113). -/
def imageLoads (a : Nat) : List Byte → List Request
  | [] => []
  | b :: l => .load a b :: imageLoads (a + 1) l

/-- A program run, whole: construction, the load of its image from address 0, then `run()` (R112 to R114). -/
def runProgram (opc : Opc) (gprInit : Vector Byte 7) (image : List Byte) (fuel : Nat) : SessionOutcome :=
  (Session.construct gprInit).requests opc (imageLoads 0 image ++ [.run fuel])

/-- What the caller is shown: nothing before the run has returned, since no other task may observe the state during it (R114); at
return, the stop status as R111 presents it. -/
def presented : SessionOutcome → Option (Nat × List Int)
  | .next (.loading _) => none
  | .next (.started s) => s.status.present
  | .fault f => (statusAfter (.fault f)).bind Status.present
  | .refused _ => none

end Sys2Proof.Machine
end

