-- ==== Sys2Proof/Safety.lean ====
section
/-! DEFINITION. The terms the claims use: bytes standing at the pc, the invariant of the machine, which instructions transfer
control, and what a safe run is (one that no fatal abort ends). -/

namespace Sys2Proof.Machine

/-- The bytes `l` stand in memory from the pc on, all of them at addresses `0..255`. -/
abbrev State.BytesAt (s : State) (l : List Byte) : Prop :=
  ∀ k : Fin l.length, s.pc + k.val < Config.memSize ∧ s.mem.read (s.pc + k.val) = l[k]

/-- The readable bytes from the pc to the end of memory. -/
def State.bytesFromPc (s : State) : List Byte :=
  (List.range (Config.memSize - s.pc)).map fun k => s.mem.read (s.pc + k)

/-- What every state of a run keeps, for the opcode assignment it runs under: the memory is in canonical form; the pc is at most
256, the address after the last cell; a state halted by HLT stands just after a HLT byte (R75); a state halted by an unknown
opcode stands at that byte, which names no instruction (R29, R94); no state is an aborted one (log 7). -/
def State.Inv (opc : Opc) (s : State) : Prop :=
  s.mem.wf = true ∧ s.pc ≤ Config.memSize ∧
    match s.status with
    | .running => True
    | .halted => ∃ p, s.pc = p + 1 ∧ s.mem.read p = opc .HLT
    | .haltedUnknown op at_ =>
      s.pc = at_ ∧ at_ < Config.memSize ∧ s.mem.read at_ = op ∧ ∀ m : Mnemonic, opc m ≠ op
    | .aborted _ => False

/-- The instructions that redirect the pc (R70, R86). -/
def isControlTransfer : Instr → Bool
  | .call _ | .ret | .jmp _ | .jeq _ | .jne _ => true
  | .nop | .hlt | .ldi _ _ | .prn _ | .add _ _ | .mul _ _ | .cmp _ _ | .push _ | .pop _ => false

/-- None of the instructions executed in the first `fuel` steps from `s` transfers control (R120). -/
def StraightLine (opc : Opc) : Nat → State → Prop
  | 0, _ => True
  | fuel + 1, s =>
    s.status = .running →
      (∀ i, fetchWith opc s = .ok i → isControlTransfer i = false) ∧
        ∀ t, stepWith opc s = .next t → StraightLine opc fuel t

/-- The machine has stopped: a next state that is not Running, or a fault. -/
def Stopped : StepOutcome → Prop
  | .next s => s.status ≠ .running
  | .fault _ => True
  | .refused _ => False

/-- A safe run: in `fuel` steps no fatal abort ends it. -/
def AbortFree (opc : Opc) (fuel : Nat) (s : State) : Prop :=
  ∀ reason out, runWith opc fuel s ≠ .fault (.fatalAbort reason out)

/-- The registers an instruction writes (R24): its destination operand and, for the stack instructions, SP (R25). -/
def writtenRegs : Instr → List Nat
  | .ldi r _ => [r.toNat]
  | .add a _ => [a.toNat]
  | .mul a _ => [a.toNat]
  | .pop r => [r.toNat, 7]
  | .push _ => [7]
  | .call _ => [7]
  | .ret => [7]
  | .nop | .hlt | .prn _ | .cmp _ _ | .jmp _ | .jeq _ | .jne _ => []

end Sys2Proof.Machine
end

