-- ==== Sys2Proof/Certificates/Slice0/Obligations.lean ====
section
/-! DEFINITION. The statements for the provers. A statement about the step is made for every opcode assignment `opc`, the
parameter `OPC` of R13, injective where it matters; `step` is `stepWith defaultOpc`. -/

open Sys2Proof Sys2Proof.Machine

/-! ### Encoding and decoding -/

/-- Decode of encode is the instruction, with every operand byte at every value and whatever bytes follow (R50, R51, R56). -/
def Obligations.DecodeOfEncodeIsTheInstruction : Prop :=
  ∀ (opc : Opc) (i : Instr) (rest : List Byte), opc.Injective → decodeWith opc (encodeWith opc i ++ rest) = .ok (i, rest)

/-- Bytes that decode are the encoding of what they decode to, followed by the rest: each byte string has one meaning (R50). -/
def Obligations.DecodedBytesAreTheEncoding : Prop :=
  ∀ (opc : Opc) (l rest : List Byte) (i : Instr), decodeWith opc l = .ok (i, rest) → l = encodeWith opc i ++ rest

/-- What the decoder rejects, and by which name: no byte at all; a first byte that is no opcode, whatever its bits and whatever
follows (R57); an opcode whose operand bytes are not all there, at the first one missing. That a list of bytes which ends too early
is rejected, and by that name (the first and third clauses), is the model's choice (log 24, DESIGN CHOICE): the machine has no such
list, its fetch reaches memory. -/
def Obligations.DecoderRejectsByName : Prop :=
  ∀ opc : Opc,
    decodeWith opc [] = .error (.unreadable 0) ∧
    (∀ (op : Byte) (l : List Byte), (∀ m : Mnemonic, opc m ≠ op) → decodeWith opc (op :: l) = .error (.unknownOpcode op)) ∧
    (opc.Injective → ∀ (m : Mnemonic) (l : List Byte), l.length < m.operandCount →
      decodeWith opc (opc m :: l) = .error (.unreadable (1 + l.length)))

/-- The default opcodes of R52, which the spec takes from general knowledge (log 2): words written out from R51 and R52 decode to
the instructions they stand for, and the bytes that name no instruction are all but the fourteen (R57). -/
def Obligations.DefaultOpcodeWordsDecode : Prop :=
  decode [0x00#8] = .ok (.nop, []) ∧
  decode [0x01#8] = .ok (.hlt, []) ∧
  decode [0x82#8, 0x03#8, 0xFF#8] = .ok (.ldi 3#8 255#8, []) ∧
  decode [0x47#8, 0x06#8] = .ok (.prn 6#8, []) ∧
  decode [0xA0#8, 0x01#8, 0x02#8] = .ok (.add 1#8 2#8, []) ∧
  decode [0xA2#8, 0x01#8, 0x02#8] = .ok (.mul 1#8 2#8, []) ∧
  decode [0xA7#8, 0x01#8, 0x02#8] = .ok (.cmp 1#8 2#8, []) ∧
  decode [0x45#8, 0x05#8] = .ok (.push 5#8, []) ∧
  decode [0x46#8, 0x05#8] = .ok (.pop 5#8, []) ∧
  decode [0x50#8, 0x04#8] = .ok (.call 4#8, []) ∧
  decode [0x11#8] = .ok (.ret, []) ∧
  decode [0x54#8, 0x04#8] = .ok (.jmp 4#8, []) ∧
  decode [0x55#8, 0x04#8] = .ok (.jeq 4#8, []) ∧
  decode [0x56#8, 0x04#8] = .ok (.jne 4#8, []) ∧
  decode [0xA1#8, 0x01#8, 0x02#8] = .error (.unknownOpcode 0xA1#8) ∧
  (∀ op : Byte, lookupOpcode defaultOpc op = none ↔ op ∉ [0x00#8, 0x01#8, 0x82#8, 0x47#8, 0xA0#8, 0xA2#8, 0xA7#8, 0x45#8,
    0x46#8, 0x50#8, 0x11#8, 0x54#8, 0x55#8, 0x56#8])

/-! ### The step -/

/-- When the bytes at the pc decode to `i`, the step is `exec i` on the state itself: the pc still names the opcode, and `exec`
alone moves it (R67, R69). The second clause says it of the encoding standing at the pc, the third of `step`. -/
def Obligations.StepRunsTheDecodedInstruction : Prop :=
  (∀ (opc : Opc) (s : State) (i : Instr) (rest : List Byte), s.status = .running →
    decodeWith opc s.bytesFromPc = .ok (i, rest) → stepWith opc s = exec i s) ∧
  (∀ (opc : Opc) (s : State) (i : Instr), opc.Injective → s.status = .running →
    s.BytesAt (encodeWith opc i) → stepWith opc s = exec i s) ∧
  (∀ (s : State) (i : Instr) (rest : List Byte), s.status = .running →
    decode s.bytesFromPc = .ok (i, rest) → step s = exec i s)

/-- The fetch past the end of memory: of the opcode, a fatal abort with the pc; of an operand byte, a fatal abort with 256, the
first address that is not there, whatever the register operands are. Rests on D4 (no wrap, log 4) and D14 (exactly `n` operand
bytes, log 10). -/
def Obligations.FetchPastTheEndAborts : Prop :=
  (∀ (opc : Opc) (s : State), s.status = .running → 256 ≤ s.pc →
    stepWith opc s = .fault (.fatalAbort (.memAddrOutOfRange s.pc) s.out)) ∧
  (∀ (opc : Opc) (m : Mnemonic) (s : State), opc.Injective → s.status = .running → s.BytesAt [opc m] →
    256 < s.pc + m.length → stepWith opc s = .fault (.fatalAbort (.memAddrOutOfRange 256) s.out))

/-- The controlled halt: a fetched byte that is no opcode stops the machine, reports the byte and the pc, and changes nothing
else; no operand is read, so it is the same at address 255 (R64, R94). Rests on D8 (the pc stays, log 8). -/
def Obligations.UnknownOpcodeHaltsAndChangesNothingElse : Prop :=
  ∀ (opc : Opc) (op : Byte) (s : State), s.status = .running → s.BytesAt [op] → (∀ m : Mnemonic, opc m ≠ op) →
    stepWith opc s = .next { s with status := .haltedUnknown op s.pc }

/-- After R19: `halt_unknown` changes the status alone; HLT writes Halted, and no other instruction writes the status; a state that is
not Running has no step. That "no step" is the fault `notRunning` (the last clause) is the model's choice (log 13, DESIGN CHOICE). -/
def Obligations.HaltingAndNoStepAfterAStop : Prop :=
  (∀ (op : Byte) (s : State), haltUnknown op s = .next { s with status := .haltedUnknown op s.pc }) ∧
  (∀ s t : State, exec .hlt s = .next t → t.status = .halted) ∧
  (∀ (i : Instr) (s t : State), i ≠ .hlt → exec i s = .next t → t.status = s.status) ∧
  (∀ (opc : Opc) (s : State), s.status ≠ .running → stepWith opc s = .fault (.notRunning s.status))

/-! ### The instructions: the whole effect of each, where it completes and where it aborts, from its handler and from its bytes
at the pc. A next state is given as the state before with the elements that change: all others are unchanged. -/

/-- NOP, whole (R74). -/
def Obligations.NopAdvancesByOne : Prop :=
  (∀ s : State, exec .nop s = .next { s with pc := s.pc + 1 }) ∧
  (∀ (opc : Opc) (s : State), opc.Injective → s.status = .running →
    (256 ≤ s.pc → stepWith opc s = .fault (.fatalAbort (.memAddrOutOfRange s.pc) s.out)) ∧
    (s.BytesAt [opc .NOP] → stepWith opc s = exec .nop s))

/-- HLT, whole (R75): the pc advances and the machine is halted, every other element as it was, and it has no step after it. That "no step" is the fault `notRunning` (the second clause) is the
model's choice (log 13, DESIGN CHOICE). -/
def Obligations.HltAdvancesAndHalts : Prop :=
  (∀ s : State, exec .hlt s = .next { s with pc := s.pc + 1, status := .halted }) ∧
  (∀ (opc : Opc) (s t : State), exec .hlt s = .next t → stepWith opc t = .fault (.notRunning .halted)) ∧
  (∀ (opc : Opc) (s : State), opc.Injective → s.status = .running →
    (256 ≤ s.pc → stepWith opc s = .fault (.fatalAbort (.memAddrOutOfRange s.pc) s.out)) ∧
    (s.BytesAt [opc .HLT] → stepWith opc s = exec .hlt s))

/-- LDI, whole (R76): the byte goes unchanged into the register, SP included; the immediate is never checked. -/
def Obligations.LdiLoadsTheImmediate : Prop :=
  (∀ (r imm : Byte) (s : State),
    (8 ≤ r.toNat → exec (.ldi r imm) s = .fault (.fatalAbort (.regIndexOutOfRange r) s.out)) ∧
    (∀ h : r.toNat < 8, exec (.ldi r imm) s = .next { s with x := s.x.set r.toNat imm h, pc := s.pc + 3 })) ∧
  (∀ (opc : Opc) (s : State), opc.Injective → s.status = .running → s.BytesAt [opc .LDI] →
    (s.pc = 255 → stepWith opc s = .fault (.fatalAbort (.memAddrOutOfRange (s.pc + 1)) s.out)) ∧
    (s.pc = 254 → stepWith opc s = .fault (.fatalAbort (.memAddrOutOfRange (s.pc + 2)) s.out)) ∧
    (s.pc < 254 → stepWith opc s = exec (.ldi (s.mem.read (s.pc + 1)) (s.mem.read (s.pc + 2))) s))

/-- PRN, whole (R77): one byte, the register's, is appended to the output; nothing else but the pc changes. -/
def Obligations.PrnEmitsTheRegister : Prop :=
  (∀ (r : Byte) (s : State),
    (8 ≤ r.toNat → exec (.prn r) s = .fault (.fatalAbort (.regIndexOutOfRange r) s.out)) ∧
    (∀ h : r.toNat < 8, exec (.prn r) s = .next { s with out := s.out ++ [s.x[r.toNat]], pc := s.pc + 2 })) ∧
  (∀ (opc : Opc) (s : State), opc.Injective → s.status = .running → s.BytesAt [opc .PRN] →
    (s.pc = 255 → stepWith opc s = .fault (.fatalAbort (.memAddrOutOfRange (s.pc + 1)) s.out)) ∧
    (s.pc < 255 → stepWith opc s = exec (.prn (s.mem.read (s.pc + 1))) s))

/-- ADD, whole (R79): the destination gets the sum modulo 256, both registers read before the write; `E` is unchanged; SP as the
destination wraps like any register; the first operand out of range is the one reported. -/
def Obligations.AddWritesTheWrappedSum : Prop :=
  (∀ (a b : Byte) (s : State),
    (8 ≤ a.toNat → exec (.add a b) s = .fault (.fatalAbort (.regIndexOutOfRange a) s.out)) ∧
    (a.toNat < 8 → 8 ≤ b.toNat → exec (.add a b) s = .fault (.fatalAbort (.regIndexOutOfRange b) s.out)) ∧
    (∀ (ha : a.toNat < 8) (hb : b.toNat < 8) (v : Byte), v.toNat = (s.x[a.toNat].toNat + s.x[b.toNat].toNat) % 256 →
      exec (.add a b) s = .next { s with x := s.x.set a.toNat v ha, pc := s.pc + 3 })) ∧
  (∀ (opc : Opc) (s : State), opc.Injective → s.status = .running → s.BytesAt [opc .ADD] →
    (s.pc = 255 → stepWith opc s = .fault (.fatalAbort (.memAddrOutOfRange (s.pc + 1)) s.out)) ∧
    (s.pc = 254 → stepWith opc s = .fault (.fatalAbort (.memAddrOutOfRange (s.pc + 2)) s.out)) ∧
    (s.pc < 254 → stepWith opc s = exec (.add (s.mem.read (s.pc + 1)) (s.mem.read (s.pc + 2))) s))

/-- MUL, whole (R80): the destination gets the low eight bits of the unsigned product. -/
def Obligations.MulWritesTheLowByteOfTheProduct : Prop :=
  (∀ (a b : Byte) (s : State),
    (8 ≤ a.toNat → exec (.mul a b) s = .fault (.fatalAbort (.regIndexOutOfRange a) s.out)) ∧
    (a.toNat < 8 → 8 ≤ b.toNat → exec (.mul a b) s = .fault (.fatalAbort (.regIndexOutOfRange b) s.out)) ∧
    (∀ (ha : a.toNat < 8) (hb : b.toNat < 8) (v : Byte), v.toNat = (s.x[a.toNat].toNat * s.x[b.toNat].toNat) % 256 →
      exec (.mul a b) s = .next { s with x := s.x.set a.toNat v ha, pc := s.pc + 3 })) ∧
  (∀ (opc : Opc) (s : State), opc.Injective → s.status = .running → s.BytesAt [opc .MUL] →
    (s.pc = 255 → stepWith opc s = .fault (.fatalAbort (.memAddrOutOfRange (s.pc + 1)) s.out)) ∧
    (s.pc = 254 → stepWith opc s = .fault (.fatalAbort (.memAddrOutOfRange (s.pc + 2)) s.out)) ∧
    (s.pc < 254 → stepWith opc s = exec (.mul (s.mem.read (s.pc + 1)) (s.mem.read (s.pc + 2))) s))

/-- CMP, whole (R81): `E` is written, to whether the two registers hold equal bytes; no register and no cell is. -/
def Obligations.CmpSetsTheEqualFlag : Prop :=
  (∀ (a b : Byte) (s : State),
    (8 ≤ a.toNat → exec (.cmp a b) s = .fault (.fatalAbort (.regIndexOutOfRange a) s.out)) ∧
    (a.toNat < 8 → 8 ≤ b.toNat → exec (.cmp a b) s = .fault (.fatalAbort (.regIndexOutOfRange b) s.out)) ∧
    (∀ (ha : a.toNat < 8) (hb : b.toNat < 8),
      exec (.cmp a b) s = .next { s with E := decide (s.x[a.toNat] = s.x[b.toNat]), pc := s.pc + 3 })) ∧
  (∀ (opc : Opc) (s : State), opc.Injective → s.status = .running → s.BytesAt [opc .CMP] →
    (s.pc = 255 → stepWith opc s = .fault (.fatalAbort (.memAddrOutOfRange (s.pc + 1)) s.out)) ∧
    (s.pc = 254 → stepWith opc s = .fault (.fatalAbort (.memAddrOutOfRange (s.pc + 2)) s.out)) ∧
    (s.pc < 254 → stepWith opc s = exec (.cmp (s.mem.read (s.pc + 1)) (s.mem.read (s.pc + 2))) s))

/-- PUSH: at SP 0 it aborts (D5, log 5); else SP becomes the byte below, and the register, read after the SP write, is stored
there, so that PUSH R7 stores the new SP (R83's reading of the effect column, U14, log 11). -/
def Obligations.PushDecrementsThenStores : Prop :=
  (∀ (r : Byte) (s : State),
    (8 ≤ r.toNat → exec (.push r) s = .fault (.fatalAbort (.regIndexOutOfRange r) s.out)) ∧
    (r.toNat < 8 → s.x[7].toNat = 0 → exec (.push r) s = .fault (.fatalAbort (.spOutOfRange (-1)) s.out)) ∧
    (∀ (h : r.toNat < 8) (d : Byte), d.toNat + 1 = s.x[7].toNat →
      exec (.push r) s = .next { s with
        x := s.x.set 7 d, mem := s.mem.write d.toNat (s.x.set 7 d)[r.toNat], pc := s.pc + 2 })) ∧
  (∀ (opc : Opc) (s : State), opc.Injective → s.status = .running → s.BytesAt [opc .PUSH] →
    (s.pc = 255 → stepWith opc s = .fault (.fatalAbort (.memAddrOutOfRange (s.pc + 1)) s.out)) ∧
    (s.pc < 255 → stepWith opc s = exec (.push (s.mem.read (s.pc + 1))) s))

/-- POP: the register gets the byte at the top of the stack, then SP, read after that write, is incremented; past 255 it aborts
(D5, log 5). The cell is not cleared, and POP R7 ends with the popped byte plus one (R84's reading, U14, log 11). -/
def Obligations.PopLoadsThenIncrements : Prop :=
  (∀ (r : Byte) (s : State),
    (8 ≤ r.toNat → exec (.pop r) s = .fault (.fatalAbort (.regIndexOutOfRange r) s.out)) ∧
    (∀ (h : r.toNat < 8) (x' : Vector Byte 8), x' = s.x.set r.toNat (s.mem.read s.x[7].toNat) h →
      (x'[7].toNat = 255 → exec (.pop r) s = .fault (.fatalAbort (.spOutOfRange 256) s.out)) ∧
      (∀ u : Byte, u.toNat = x'[7].toNat + 1 → exec (.pop r) s = .next { s with x := x'.set 7 u, pc := s.pc + 2 }))) ∧
  (∀ (opc : Opc) (s : State), opc.Injective → s.status = .running → s.BytesAt [opc .POP] →
    (s.pc = 255 → stepWith opc s = .fault (.fatalAbort (.memAddrOutOfRange (s.pc + 1)) s.out)) ∧
    (s.pc < 255 → stepWith opc s = exec (.pop (s.mem.read (s.pc + 1))) s))

/-- CALL: at SP 0 it aborts (D5, log 5), else at a return address past 255 (D6, log 6), in that order (D10, log 9); else it stores
the address after its operand below the stack top, moves SP there and goes to the register, read after the SP write, so that CALL
R7 goes to the new SP (R87's reading, U14, log 11). -/
def Obligations.CallStoresTheReturnAddressAndRedirects : Prop :=
  (∀ (r : Byte) (s : State),
    (8 ≤ r.toNat → exec (.call r) s = .fault (.fatalAbort (.regIndexOutOfRange r) s.out)) ∧
    (r.toNat < 8 → s.x[7].toNat = 0 → exec (.call r) s = .fault (.fatalAbort (.spOutOfRange (-1)) s.out)) ∧
    (r.toNat < 8 → 0 < s.x[7].toNat → 255 < s.pc + 2 →
      exec (.call r) s = .fault (.fatalAbort (.returnAddrOutOfRange (s.pc + 2)) s.out)) ∧
    (∀ (h : r.toNat < 8) (d ret : Byte), d.toNat + 1 = s.x[7].toNat → ret.toNat = s.pc + 2 →
      exec (.call r) s = .next { s with
        x := s.x.set 7 d, mem := s.mem.write d.toNat ret, pc := (s.x.set 7 d)[r.toNat].toNat })) ∧
  (∀ (opc : Opc) (s : State), opc.Injective → s.status = .running → s.BytesAt [opc .CALL] →
    (s.pc = 255 → stepWith opc s = .fault (.fatalAbort (.memAddrOutOfRange (s.pc + 1)) s.out)) ∧
    (s.pc < 255 → stepWith opc s = exec (.call (s.mem.read (s.pc + 1))) s))

/-- RET: the pc becomes the byte at the top of the stack, whatever put it there, and SP is incremented; at SP 255 it aborts
(D5, log 5). -/
def Obligations.RetPopsThePc : Prop :=
  (∀ s : State,
    (s.x[7].toNat = 255 → exec .ret s = .fault (.fatalAbort (.spOutOfRange 256) s.out)) ∧
    (∀ u : Byte, u.toNat = s.x[7].toNat + 1 →
      exec .ret s = .next { s with x := s.x.set 7 u, pc := (s.mem.read s.x[7].toNat).toNat })) ∧
  (∀ (opc : Opc) (s : State), opc.Injective → s.status = .running →
    (256 ≤ s.pc → stepWith opc s = .fault (.fatalAbort (.memAddrOutOfRange s.pc) s.out)) ∧
    (s.BytesAt [opc .RET] → stepWith opc s = exec .ret s))

/-- JMP, whole (R89): the pc becomes the register; `E` is neither read nor written. -/
def Obligations.JmpGoesToTheRegister : Prop :=
  (∀ (r : Byte) (s : State),
    (8 ≤ r.toNat → exec (.jmp r) s = .fault (.fatalAbort (.regIndexOutOfRange r) s.out)) ∧
    (∀ h : r.toNat < 8, exec (.jmp r) s = .next { s with pc := s.x[r.toNat].toNat })) ∧
  (∀ (opc : Opc) (s : State), opc.Injective → s.status = .running → s.BytesAt [opc .JMP] →
    (s.pc = 255 → stepWith opc s = .fault (.fatalAbort (.memAddrOutOfRange (s.pc + 1)) s.out)) ∧
    (s.pc < 255 → stepWith opc s = exec (.jmp (s.mem.read (s.pc + 1))) s))

/-- JEQ, whole (R90): to the register if `E`, else past the instruction; a register index out of range aborts whether or not the
branch would be taken; `E` is not cleared. -/
def Obligations.JeqGoesToTheRegisterIfEqual : Prop :=
  (∀ (r : Byte) (s : State),
    (8 ≤ r.toNat → exec (.jeq r) s = .fault (.fatalAbort (.regIndexOutOfRange r) s.out)) ∧
    (∀ h : r.toNat < 8,
      (s.E = true → exec (.jeq r) s = .next { s with pc := s.x[r.toNat].toNat }) ∧
      (s.E = false → exec (.jeq r) s = .next { s with pc := s.pc + 2 }))) ∧
  (∀ (opc : Opc) (s : State), opc.Injective → s.status = .running → s.BytesAt [opc .JEQ] →
    (s.pc = 255 → stepWith opc s = .fault (.fatalAbort (.memAddrOutOfRange (s.pc + 1)) s.out)) ∧
    (s.pc < 255 → stepWith opc s = exec (.jeq (s.mem.read (s.pc + 1))) s))

/-- JNE, whole (R91): to the register if not `E`, else past the instruction; otherwise as JEQ. -/
def Obligations.JneGoesToTheRegisterIfNotEqual : Prop :=
  (∀ (r : Byte) (s : State),
    (8 ≤ r.toNat → exec (.jne r) s = .fault (.fatalAbort (.regIndexOutOfRange r) s.out)) ∧
    (∀ h : r.toNat < 8,
      (s.E = false → exec (.jne r) s = .next { s with pc := s.x[r.toNat].toNat }) ∧
      (s.E = true → exec (.jne r) s = .next { s with pc := s.pc + 2 }))) ∧
  (∀ (opc : Opc) (s : State), opc.Injective → s.status = .running → s.BytesAt [opc .JNE] →
    (s.pc = 255 → stepWith opc s = .fault (.fatalAbort (.memAddrOutOfRange (s.pc + 1)) s.out)) ∧
    (s.pc < 255 → stepWith opc s = exec (.jne (s.mem.read (s.pc + 1))) s))

/-- The register check (R54, R66): the first register operand byte of 8 or more, in operand order, aborts before any effect,
whatever the instruction and the state. Rests on D2 (the whole byte, no masking, log 3) and D10 (log 9). -/
def Obligations.FirstBadRegisterOperandAborts : Prop :=
  ∀ (i : Instr) (s : State) (b : Byte), (i.regOperands.find? fun r => decide (8 ≤ r.toNat)) = some b →
    exec i s = .fault (.fatalAbort (.regIndexOutOfRange b) s.out)

/-! ### The ALU -/

/-- R78: addition and multiplication of unsigned bytes modulo 256, and bit-for-bit equality. -/
def Obligations.AluComputesModulo256 : Prop :=
  ∀ u v : Byte, (aluAdd u v).toNat = (u.toNat + v.toNat) % 256 ∧ (aluMul u v).toNat = (u.toNat * v.toNat) % 256 ∧
    (aluEq u v = true ↔ u.toNat = v.toNat)

/-- R82, which the spec derives from R78: the results are those of a signed reading too, and the operations commute. -/
def Obligations.AluLawsOfSignedReadingAndCommutation : Prop :=
  ∀ u v : Byte, aluAdd u v = BitVec.ofInt 8 (u.toInt + v.toInt) ∧ aluMul u v = BitVec.ofInt 8 (u.toInt * v.toInt) ∧
    aluAdd u v = aluAdd v u ∧ aluMul u v = aluMul v u ∧ aluEq u v = aluEq v u

/-! ### Frames and whole-machine rules -/

/-- R24: every register can be written, and the write is to it alone; every register can be named by every register operand; and
an instruction changes no register but its own: LDI, ADD, MUL their first operand, POP its operand and R7, PUSH, CALL, RET R7
(`writtenRegs`). -/
def Obligations.RegistersAndTheirWriters : Prop :=
  (∀ (i : RegIdx) (v : Byte) (s : State), ∃ t, exec (.ldi (BitVec.ofNat 8 i.val) v) s = .next t ∧ t.reg i = v ∧
    ∀ j, j ≠ i → t.reg j = s.reg j) ∧
  (∀ (i : Instr) (s : State) (b : Byte) (out : List Byte), i.WellFormed →
    exec i s ≠ .fault (.fatalAbort (.regIndexOutOfRange b) out)) ∧
  (∀ (i : Instr) (s t : State) (j : RegIdx), exec i s = .next t → j.val ∉ writtenRegs i → t.reg j = s.reg j)

/-- R27: `E` is false at construction; CMP writes it, true exactly when its two registers hold equal bytes, and no other
instruction does; JEQ and JNE read it, and no other instruction's outcome depends on it. -/
def Obligations.OnlyCmpWritesAndOnlyBranchesReadTheFlag : Prop :=
  (∀ g : Vector Byte 7, (State.construct g).E = false) ∧
  (∀ (a b : Byte) (s t : State), exec (.cmp a b) s = .next t →
    ∃ (ha : a.toNat < 8) (hb : b.toNat < 8), t.E = true ↔ s.x[a.toNat] = s.x[b.toNat]) ∧
  (∀ (i : Instr) (s t : State), (∀ a b, i ≠ .cmp a b) → exec i s = .next t → t.E = s.E) ∧
  (∀ (i : Instr) (e : Bool) (s : State), (∀ r, i ≠ .jeq r) → (∀ r, i ≠ .jne r) → (∀ a b, i ≠ .cmp a b) →
    exec i (s.setE e) = mapNext (fun t => t.setE e) (exec i s)) ∧
  (∀ (a b : Byte) (e : Bool) (s : State), exec (.cmp a b) (s.setE e) = exec (.cmp a b) s)

/-- The output stream (R30, the CORE's side of it): empty at construction; a step appends nothing, or the one byte of the PRN it
executes; a fatal abort keeps what was emitted before (R29). -/
def Obligations.OnlyPrnAppendsToTheOutput : Prop :=
  (∀ g : Vector Byte 7, (State.construct g).out = []) ∧
  (∀ (opc : Opc) (s t : State), stepWith opc s = .next t →
    (∀ r, fetchWith opc s ≠ .ok (.prn r)) → t.out = s.out) ∧
  (∀ (opc : Opc) (s t : State) (r : Byte), stepWith opc s = .next t → fetchWith opc s = .ok (.prn r) →
    ∃ h : r.toNat < 8, t.out = s.out ++ [s.x[r.toNat]]) ∧
  (∀ (opc : Opc) (s : State) (reason : AbortReason) (out : List Byte),
    stepWith opc s = .fault (.fatalAbort reason out) → out = s.out)

/-- R70: the pc policy of every instruction, the table row by row. CALL's target is read after SP is decremented, which is the
register in the next state. -/
def Obligations.PcPolicyOfEveryInstruction : Prop :=
  ∀ (i : Instr) (s t : State), exec i s = .next t →
    match i with
    | .nop | .hlt => t.pc = s.pc + 1
    | .ldi _ _ => t.pc = s.pc + 3
    | .prn _ => t.pc = s.pc + 2
    | .add _ _ | .mul _ _ | .cmp _ _ => t.pc = s.pc + 3
    | .push _ | .pop _ => t.pc = s.pc + 2
    | .call r => ∃ h : r.toNat < 8, t.pc = t.x[r.toNat].toNat
    | .ret => t.pc = (s.mem.read s.x[7].toNat).toNat
    | .jmp r => ∃ h : r.toNat < 8, t.pc = s.x[r.toNat].toNat
    | .jeq r => ∃ h : r.toNat < 8, t.pc = if s.E then s.x[r.toNat].toNat else s.pc + 2
    | .jne r => ∃ h : r.toNat < 8, t.pc = if s.E then s.pc + 2 else s.x[r.toNat].toNat

/-- The memory frame of the instructions that store nothing (R39): all but PUSH and CALL leave every byte of memory as it was. -/
def Obligations.InstructionsThatStoreNothingLeaveMemory : Prop :=
  ∀ (i : Instr) (s t : State) (a : Nat), (∀ r, i ≠ .push r) → (∀ r, i ≠ .call r) → exec i s = .next t →
    t.mem.read a = s.mem.read a

/-- The memory frame of PUSH and CALL (R39): they store one byte, at the address `spBelow` gives, and every other byte is as it
was; the byte stored is, for PUSH, the register as the next state holds it (read after the SP write) and, for CALL, `pc + 2`. -/
def Obligations.PushAndCallStoreOneByteBelowSp : Prop :=
  (∀ (r : Byte) (s t : State) (d : Byte), spBelow s = .ok d → exec (.push r) s = .next t →
    (∀ a : Nat, a ≠ d.toNat → t.mem.read a = s.mem.read a) ∧
    (s.mem.wf = true → ∃ h : r.toNat < 8, t.mem.read d.toNat = t.x[r.toNat])) ∧
  (∀ (r : Byte) (s t : State) (d : Byte), spBelow s = .ok d → exec (.call r) s = .next t →
    (∀ a : Nat, a ≠ d.toNat → t.mem.read a = s.mem.read a) ∧
    (s.mem.wf = true → (t.mem.read d.toNat).toNat = s.pc + 2))

/-- SP is implicit in the stack instructions alone (R25): an instruction that is none of PUSH, POP, CALL, RET and does not name R7
does the same whatever SP holds, and leaves it. -/
def Obligations.OnlyStackInstructionsUseSpImplicitly : Prop :=
  ∀ (i : Instr) (v : Byte) (s : State), (∀ r, i ≠ .push r) → (∀ r, i ≠ .pop r) → (∀ r, i ≠ .call r) → i ≠ .ret →
    (∀ r ∈ i.regOperands, r.toNat ≠ 7) → exec i (s.setSp v) = mapNext (fun t => t.setSp v) (exec i s)

/-! ### Memory -/

/-- R37, with the primitives of R17: an address `0..255` names its own cell, which reads as last written and shares nothing with
another; any other address is rejected by `MemAddrOutOfRange`, and nothing is read or written. -/
def Obligations.AddressDecoderAdmitsExactly256Cells : Prop :=
  ∀ (a : Nat) (v : Byte) (s : State), s.mem.wf = true →
    (a ≤ 255 → memRead a s = .ok (s.mem.read a) ∧
      ∃ t, memWrite a v s = .ok t ∧ memRead a t = .ok v ∧ (∀ b, b ≠ a → memRead b t = memRead b s) ∧
        t = { s with mem := t.mem }) ∧
    (255 < a → memRead a s = .error (.memAddrOutOfRange a) ∧ memWrite a v s = .error (.memAddrOutOfRange a))

/-- A read returns the most recent write to its cell, or the construction value 0 if there is none (R31, R45). -/
def Obligations.ReadReturnsTheMostRecentWrite : Prop :=
  ∀ (ws : List (Nat × Byte)) (a : Nat), (∀ w ∈ ws, w.1 < 256) →
    Memory.read (ws.foldl (fun m w => Memory.write m w.1 w.2) []) a =
      ((ws.reverse.find? fun w => decide (w.1 = a)).map Prod.snd).getD 0#8

/-- Equal memories are equal data: two memories in canonical form that read alike everywhere are the same list (the model's
choice of representation, log 22). -/
def Obligations.CanonicalMemoriesThatReadAlikeAreEqual : Prop :=
  ∀ m n : Memory, m.wf = true → n.wf = true → (∀ a, m.read a = n.read a) → m = n

/-- The loader's writes (R113): an image of at most 256 bytes stands at addresses from 0, the other cells as they were, and nothing
but memory changes; a longer one is refused (D19, log 15). The statement speaks of the effect on any state whose memory is in
canonical form, one of a started run included, which is the model's choice (log 14, DESIGN CHOICE): R114 admits a load only before
the run, and that is said of the port itself, `Session.load`, by `OnlyLoadsThenOneRunAreAdmitted`. -/
def Obligations.LoaderFillsMemoryFromZero : Prop :=
  ∀ (image : List Byte) (s : State), s.mem.wf = true →
    (image.length ≤ 256 → ∃ t, loadImage image s = .next t ∧ t = { s with mem := t.mem } ∧
      ∀ a, t.mem.read a = image[a]?.getD (s.mem.read a)) ∧
    (256 < image.length → loadImage image s = .refused (.loadAddrOutOfRange 256))

/-- Fetch is coherent with stores (R48): the fetch after a PUSH or a CALL reads the byte it stored at the address it stored it to,
and every other byte as before it. -/
def Obligations.TheNextFetchSeesTheStoredByte : Prop :=
  (∀ (opc : Opc) (r : Byte) (s t : State) (d : Byte), s.mem.wf = true → spBelow s = .ok d → exec (.push r) s = .next t →
    ∃ h : r.toNat < 8, fetchWith opc t =
      decodeBy opc fun k => if t.pc + k = d.toNat then .ok t.x[r.toNat] else memRead (t.pc + k) s) ∧
  (∀ (opc : Opc) (r : Byte) (s t : State) (d : Byte), s.mem.wf = true → spBelow s = .ok d → exec (.call r) s = .next t →
    fetchWith opc t =
      decodeBy opc fun k => if t.pc + k = d.toNat then .ok (BitVec.ofNat 8 (s.pc + 2)) else memRead (t.pc + k) s)

/-! ### Stack pairs -/

/-- PUSH then POP of the same register, R7 included, with SP at least 1: every register and SP are as before, the pc is past both,
and only the cell pushed to may differ (spec/95_test_vectors.md W4, with the condition of C8). -/
def Obligations.PushThenPopRestoresTheRegisters : Prop :=
  ∀ (r : Byte) (s : State), r.toNat < 8 → 1 ≤ s.x[7].toNat → s.mem.wf = true →
    ∃ t u, exec (.push r) s = .next t ∧ exec (.pop r) t = .next u ∧
      u = { s with mem := u.mem, pc := s.pc + 4 } ∧
      ∀ a, a + 1 ≠ s.x[7].toNat → u.mem.read a = s.mem.read a

/-- CALL then, with SP and the pushed cell as CALL left them, RET (R92): the pc is that of the instruction after the CALL, SP its
value before it, and the RET leaves the flag and the other registers as it found them. -/
def Obligations.RetResumesAfterTheCall : Prop :=
  ∀ (r : Byte) (s t u : State), s.mem.wf = true → exec (.call r) s = .next t → u.x[7] = t.x[7] →
    u.mem.read u.x[7].toNat = t.mem.read t.x[7].toNat →
    exec .ret u = .next { u with x := u.x.set 7 s.x[7], pc := s.pc + 2 }

/-! ### Stops -/

/-- Which instruction can end in which stop, and with what value (R95, R96): a handler never raises `MemAddrOutOfRange`;
`RegIndexOutOfRange` names one of its register operands; `SpOutOfRange` is -1 for PUSH and CALL at SP 0, 256 for RET at SP 255
and for POP when SP after the register write is 255; `ReturnAddrOutOfRange` is CALL's. Rests on D2, D5, D6 (logs 3, 5, 6). -/
def Obligations.HandlersAbortOnlyAsTabled : Prop :=
  ∀ (i : Instr) (s : State) (f : Fault), exec i s = .fault f →
    ∃ reason, f = .fatalAbort reason s.out ∧
      match reason with
      | .memAddrOutOfRange _ => False
      | .regIndexOutOfRange b => b ∈ i.regOperands ∧ 8 ≤ b.toNat
      | .spOutOfRange t =>
        (t = -1 ∧ s.x[7].toNat = 0 ∧ ∃ r, i = .push r ∨ i = .call r) ∨
        (t = 256 ∧ s.x[7].toNat = 255 ∧ i = .ret) ∨
        (t = 256 ∧ ∃ (r : Byte) (h : r.toNat < 8), i = .pop r ∧ (s.x.set r.toNat (s.mem.read s.x[7].toNat) h)[7].toNat = 255)
      | .returnAddrOutOfRange v => v = s.pc + 2 ∧ 255 < v ∧ ∃ r, i = .call r

/-- Every step of a running machine ends in one of the ways R93 names: it goes on, it is halted by HLT, it is halted by an unknown
byte with nothing else changed, or it is a fatal abort with the output emitted before. None is refused. -/
def Obligations.EveryStepEndsInANamedWay : Prop :=
  ∀ (opc : Opc) (s : State), s.status = .running →
    (∃ t, stepWith opc s = .next t ∧ (t.status = .running ∨
      (t.status = .halted ∧ fetchWith opc s = .ok .hlt) ∨
      (∃ op, (∀ m : Mnemonic, opc m ≠ op) ∧ t = { s with status := .haltedUnknown op s.pc }))) ∨
    (∃ reason, stepWith opc s = .fault (.fatalAbort reason s.out))

/-- The order of simultaneous conditions (R100, D10, log 9): the opcode fetch, then the opcode, then the operand fetch, then the
register operands in order, then the handler's own checks, of CALL the SP first. -/
def Obligations.TheFirstConditionIsTheOneReported : Prop :=
  (∀ (opc : Opc) (s : State) (op : Byte), s.status = .running → s.pc = 255 → s.mem.read 255 = op →
    (∀ m : Mnemonic, opc m ≠ op) → stepWith opc s = .next { s with status := .haltedUnknown op 255 }) ∧
  (∀ (opc : Opc) (s : State) (m : Mnemonic) (a : Byte), opc.Injective → s.status = .running → m.operandCount = 2 →
    s.pc = 254 → s.BytesAt [opc m, a] → 8 ≤ a.toNat →
    stepWith opc s = .fault (.fatalAbort (.memAddrOutOfRange 256) s.out)) ∧
  (∀ (a b : Byte) (s : State), 8 ≤ a.toNat →
    exec (.add a b) s = .fault (.fatalAbort (.regIndexOutOfRange a) s.out) ∧
    exec (.mul a b) s = .fault (.fatalAbort (.regIndexOutOfRange a) s.out) ∧
    exec (.cmp a b) s = .fault (.fatalAbort (.regIndexOutOfRange a) s.out)) ∧
  (∀ (r : Byte) (s : State), 8 ≤ r.toNat →
    exec (.push r) s = .fault (.fatalAbort (.regIndexOutOfRange r) s.out) ∧
    exec (.call r) s = .fault (.fatalAbort (.regIndexOutOfRange r) s.out)) ∧
  (∀ (r : Byte) (s : State), r.toNat < 8 → s.x[7].toNat = 0 →
    exec (.call r) s = .fault (.fatalAbort (.spOutOfRange (-1)) s.out))

/-- The status interface (R111, R95; the codes are D9, log 16): the code of each status, and that the code and the recorded values
tell any two statuses apart. -/
def Obligations.StatusCodesTellTheStopsApart : Prop :=
  (∀ (op : Byte) (at_ a v : Nat) (i : Byte) (t : Int),
    Status.running.code = 0 ∧ Status.halted.code = 1 ∧ (Status.haltedUnknown op at_).code = 2 ∧
    (Status.aborted (.memAddrOutOfRange a)).code = 3 ∧ (Status.aborted (.regIndexOutOfRange i)).code = 4 ∧
    (Status.aborted (.spOutOfRange t)).code = 5 ∧ (Status.aborted (.returnAddrOutOfRange v)).code = 6) ∧
  (∀ p q : Status, p.code = q.code → p.recorded = q.recorded → p = q)

/-! ### Construction, the invariant, and runs -/

/-- R35: the value of every element at construction, for every draw of `GPR_INIT`; `State.reset` is the construction for one. -/
def Obligations.ConstructionSetsEveryElement : Prop :=
  (∀ g : Vector Byte 7, (∀ a, (State.construct g).mem.read a = 0#8) ∧ (State.construct g).x[7] = 0xF4#8 ∧
    (∀ i : Fin 7, (State.construct g).x[i.val] = g[i]) ∧ (State.construct g).pc = 0 ∧ (State.construct g).E = false ∧
    (State.construct g).status = .running ∧ (State.construct g).out = []) ∧
  (∃ g, State.reset = State.construct g)

/-- The invariant holds at construction, for every draw of `GPR_INIT` and so at `State.reset`. -/
def Obligations.ConstructionMeetsTheInvariant : Prop :=
  (∀ (opc : Opc) (g : Vector Byte 7), (State.construct g).Inv opc) ∧ ∀ opc : Opc, State.reset.Inv opc

/-- The invariant of the machine is kept by every step: the memory stays in canonical form (log 22), the pc stays at most 256
(DEDUCED from R65 and R70, log 20), a halted state stands just after a HLT byte (R75), a state halted by an unknown opcode stands
at a byte that is no opcode (R94), and no step leads to an aborted state (log 7). -/
def Obligations.EveryStepKeepsTheInvariant : Prop :=
  ∀ (opc : Opc) (s t : State), s.Inv opc → stepWith opc s = .next t → t.Inv opc

/-- The loader's writes keep the invariant, and the machine ready to run (R113). The statement speaks of the effect on any Running
state that meets the invariant, at any pc, which is the model's choice (log 14, DESIGN CHOICE): R114 admits a load only before the
run, and that is said of the port itself by `OnlyLoadsThenOneRunAreAdmitted`. -/
def Obligations.LoadingKeepsTheInvariant : Prop :=
  ∀ (opc : Opc) (image : List Byte) (s t : State), s.status = .running → s.Inv opc → loadImage image s = .next t →
    t.Inv opc ∧ t.status = .running

/-- R120: from any state, a run whose executed instructions transfer no control stops within 257 steps. -/
def Obligations.StraightLineRunsStopWithin257Steps : Prop :=
  ∀ (opc : Opc) (s : State), StraightLine opc 257 s → Stopped (runWith opc 257 s)

/-- R120's other half: a jump to its own address never stops, and changes nothing (R89). -/
def Obligations.AJumpToItselfNeverStops : Prop :=
  ∀ (opc : Opc) (r : Byte) (s : State), opc.Injective → s.status = .running → s.BytesAt [opc .JMP, r] →
    (∃ h : r.toNat < 8, s.x[r.toNat].toNat = s.pc) → ∀ fuel, runWith opc fuel s = .next s

/-- A run through NOPs to the end of memory ends in the fetch abort at 256, with the output as it was (R61). -/
def Obligations.ARunThroughNopsAbortsAtTheEnd : Prop :=
  ∀ (opc : Opc) (s : State) (n : Nat), opc.Injective → s.status = .running → s.pc + n = 256 →
    (∀ a, s.pc ≤ a → a < 256 → s.mem.read a = opc .NOP) →
    runWith opc (n + 1) s = .fault (.fatalAbort (.memAddrOutOfRange 256) s.out)

/-- A stopped run stays as it stopped, every element of its state kept, and is a safe run for ever (R29, R71, R110). -/
def Obligations.AStoppedRunStaysAsItStopped : Prop :=
  ∀ (opc : Opc) (k : Nat) (s t : State), runWith opc k s = .next t → t.status ≠ .running →
    (∀ n, runWith opc (k + n) s = .next t) ∧ ∀ n, AbortFree opc n s

/-! ### The transactions of the caller, and the trace -/

/-- Which transactions a constructed machine admits, and what each leaves (R112 to R114, R116): exactly loads at addresses below 256,
which write memory in their order and change nothing else, then at most one run, which starts from the state they left. That any
other transaction is a refusal is the model's choice (log 25, DESIGN CHOICE). -/
def Obligations.OnlyLoadsThenOneRunAreAdmitted : Prop :=
  ∀ (opc : Opc) (g : Vector Byte 7) (l : List Request) (ss : Session),
    (Session.construct g).requests opc l = .next ss ↔
      ∃ (ws : List (Nat × Byte)) (s : State), (∀ w ∈ ws, w.1 < 256) ∧
        s = { State.construct g with mem := ws.foldl (fun m w => Memory.write m w.1 w.2) [] } ∧
        ((l = ws.map (fun w => .load w.1 w.2) ∧ ss = .loading s) ∨
          ∃ fuel t, l = ws.map (fun w => .load w.1 w.2) ++ [.run fuel] ∧ runWith opc fuel s = .next t ∧ ss = .started t)

/-- Once the run has started no load happens (R114) and there is no second run (R116): the port refuses each, by name, and no list of
transactions goes on. The refusals and their names are the model's choice (log 25, DESIGN CHOICE). -/
def Obligations.NothingIsAdmittedOnceTheRunHasStarted : Prop :=
  (∀ (a : Nat) (v : Byte) (t : State), (Session.started t).load a v = .refused (.loadAfterRunStart a)) ∧
  (∀ (opc : Opc) (fuel : Nat) (t : State), (Session.started t).run opc fuel = .refused .runAfterRunStart) ∧
  (∀ (opc : Opc) (q : Request) (l : List Request) (t : State) (ss : Session),
    (Session.started t).requests opc (q :: l) ≠ .next ss)

/-- A program run, whole (R112 to R114): of an image of at most 256 bytes it is the execution loop from a state that is construction's
but for memory, Running at pc 0, in which byte `k` of the image stands at address `k` and every other cell is 0; of a longer image
nothing runs (D19, log 15). -/
def Obligations.AProgramRunIsTheLoopFromItsLoadedImage : Prop :=
  ∀ (opc : Opc) (g : Vector Byte 7) (image : List Byte) (fuel : Nat),
    (image.length ≤ 256 → ∃ s : State, s = { State.construct g with mem := s.mem } ∧ s.status = .running ∧ s.pc = 0 ∧
      (∀ a, s.mem.read a = image[a]?.getD 0#8) ∧ runProgram opc g image fuel = mapNext .started (runWith opc fuel s)) ∧
    (256 < image.length → runProgram opc g image fuel = .refused (.loadAddrOutOfRange 256))

/-- What the caller is shown (R111, R114): nothing of a run that has not stopped; of one that has, the code and recorded values of the
state it stopped in, or of its fatal abort; never code 0. The codes are D9 (log 16). -/
def Obligations.TheCallerIsShownTheStopAlone : Prop :=
  (∀ (opc : Opc) (fuel : Nat) (s : State), s.status = .running →
    (∃ t, (Session.loading s).run opc fuel = .next (.started t) ∧
      (t.status = .running → presented ((Session.loading s).run opc fuel) = none) ∧
      (t.status ≠ .running → presented ((Session.loading s).run opc fuel) = some (t.status.code, t.status.recorded))) ∨
    (∃ reason out, (Session.loading s).run opc fuel = .fault (.fatalAbort reason out) ∧
      presented ((Session.loading s).run opc fuel) = some ((Status.aborted reason).code, (Status.aborted reason).recorded))) ∧
  (∀ (o : SessionOutcome) (c : Nat × List Int), presented o = some c → 1 ≤ c.1 ∧ c.1 ≤ 6)

/-- The optional trace (R108, D18): an entry shows the pc, the three bytes after it, none for one past 255, and the registers; a run's
trace has exactly one entry for each step that fetches an opcode, the view of the state that step starts in. Which three bytes, and
that a missing one shows as none, is log 21. -/
def Obligations.TheTraceShowsEveryOpcodeFetch : Prop :=
  (∀ s : State, ∃ l : List (Option Byte), traceView s = (s.pc, l, s.x.toList) ∧ l.length = 3 ∧
    ∀ k < 3, l[k]? = some (if s.pc + 1 + k < 256 then some (s.mem.read (s.pc + 1 + k)) else none)) ∧
  (∀ (opc : Opc) (n k : Nat) (s : State) (e : TraceEntry), (traceRun opc n s)[k]? = some e ↔
    k < n ∧ ∃ u, runWith opc k s = .next u ∧ u.status = .running ∧ u.pc < 256 ∧ e = traceView u)
end

