-- ==== Sys2Proof/Laws/Memory.lean ====
section
/-! SUPPORT. The laws of the memory: read after write, and every memory operation keeps the canonical form. -/

namespace Sys2Proof.Machine

theorem Memory.read_nil (a : Nat) : Memory.read [] a = Config.unlistedByte := rfl

theorem Memory.read_cons (b : Nat) (v : Byte) (m : Memory) (a : Nat) :
    Memory.read ((b, v) :: m) a = if b = a then v else m.read a := rfl

/-- The parts of the canonical form of a memory with a first cell. -/
theorem Memory.wf_cons {a : Nat} {v : Byte} {m : Memory} :
    Memory.wf ((a, v) :: m) = true ↔
      a < Config.memSize ∧ v ≠ Config.unlistedByte ∧ (∀ c ∈ m, a < c.1) ∧ m.wf = true := by
  simp [Memory.wf, and_assoc]

/-- An address below every listed one reads as an unlisted cell. -/
theorem Memory.read_below {m : Memory} {a : Nat} (h : ∀ c ∈ m, a < c.1) : m.read a = Config.unlistedByte := by
  induction m with
  | nil => rfl
  | cons c m ih =>
    obtain ⟨b, v⟩ := c
    have hb : a < b := h (b, v) (by simp)
    rw [Memory.read_cons, if_neg (by omega)]
    exact ih fun c hc => h c (by simp [hc])

/-- A read after a write to the same cell gives the value written. -/
theorem Memory.read_write_same {m : Memory} (hwf : m.wf = true) (a : Nat) (v : Byte) : (m.write a v).read a = v := by
  induction m with
  | nil =>
    by_cases hv : v = Config.unlistedByte <;> simp [Memory.write, hv, Memory.read]
  | cons c m ih =>
    obtain ⟨b, w⟩ := c
    obtain ⟨-, -, hlt, hm⟩ := Memory.wf_cons.mp hwf
    by_cases hab : a < b
    · by_cases hv : v = Config.unlistedByte
      · subst hv
        simp only [Memory.write, if_pos hab, if_true]
        exact Memory.read_below fun c hc => by
          rcases List.mem_cons.mp hc with rfl | hc
          · exact hab
          · exact Nat.lt_trans hab (hlt c hc)
      · simp [Memory.write, hab, hv, Memory.read_cons]
    · by_cases he : a = b
      · subst he
        by_cases hv : v = Config.unlistedByte
        · subst hv
          simp only [Memory.write, if_neg (Nat.lt_irrefl a), if_true]
          exact Memory.read_below hlt
        · simp [Memory.write, hv, Memory.read_cons]
      · have : ¬ b = a := fun e => he e.symm
        simp [Memory.write, hab, he, Memory.read_cons, this, ih hm]

/-- A write leaves every other cell as it was. -/
theorem Memory.read_write_other (m : Memory) {a c : Nat} (h : c ≠ a) (v : Byte) : (m.write a v).read c = m.read c := by
  have hac : ¬ a = c := fun e => h e.symm
  induction m with
  | nil => by_cases hv : v = Config.unlistedByte <;> simp [Memory.write, hv, Memory.read, hac]
  | cons d m ih =>
    obtain ⟨b, w⟩ := d
    by_cases hab : a < b
    · by_cases hv : v = Config.unlistedByte <;> simp [Memory.write, hab, hv, Memory.read_cons, hac]
    · by_cases he : a = b
      · subst he
        by_cases hv : v = Config.unlistedByte <;> simp [Memory.write, hv, Memory.read_cons, hac]
      · simp only [Memory.write, if_neg hab, if_neg he, Memory.read_cons, ih]

theorem Memory.read_write {m : Memory} (hwf : m.wf = true) (a c : Nat) (v : Byte) :
    (m.write a v).read c = if c = a then v else m.read c := by
  by_cases h : c = a
  · subst h; simp [Memory.read_write_same hwf]
  · simp [h, Memory.read_write_other m h]

/-- The addresses a write lists are the address written and those listed before. -/
theorem Memory.mem_write {m : Memory} {a : Nat} {v : Byte} {c : Host.Cell} (h : c ∈ m.write a v) :
    c.1 = a ∨ c ∈ m := by
  induction m with
  | nil =>
    by_cases hv : v = Config.unlistedByte <;> simp [Memory.write, hv] at h
    exact .inl (by rw [h])
  | cons d m ih =>
    obtain ⟨b, w⟩ := d
    simp only [Memory.write] at h
    split at h
    · split at h
      · exact .inr h
      · rcases List.mem_cons.mp h with rfl | h
        · exact .inl rfl
        · exact .inr h
    · split at h
      · rename_i he
        split at h
        · exact .inr (List.mem_cons_of_mem _ h)
        · rcases List.mem_cons.mp h with rfl | h
          · exact .inl he.symm
          · exact .inr (List.mem_cons_of_mem _ h)
      · rcases List.mem_cons.mp h with rfl | h
        · exact .inr (by simp)
        · rcases ih h with h | h
          · exact .inl h
          · exact .inr (List.mem_cons_of_mem _ h)

/-- A write of a cell of memory keeps the canonical form. -/
theorem Memory.write_wf {m : Memory} (hwf : m.wf = true) {a : Nat} (ha : a < Config.memSize) (v : Byte) :
    (m.write a v).wf = true := by
  induction m with
  | nil =>
    by_cases hv : v = Config.unlistedByte
    · simp [Memory.write, hv, Memory.wf]
    · simp [Memory.write, hv, Memory.wf, ha]
  | cons d m ih =>
    obtain ⟨b, w⟩ := d
    obtain ⟨hb, hw, hlt, hm⟩ := Memory.wf_cons.mp hwf
    simp only [Memory.write]
    split
    · rename_i hab
      split
      · exact hwf
      · rename_i hv
        refine Memory.wf_cons.mpr ⟨ha, hv, fun c hc => ?_, hwf⟩
        rcases List.mem_cons.mp hc with rfl | hc
        · exact hab
        · exact Nat.lt_trans hab (hlt c hc)
    · split
      · split
        · exact hm
        · rename_i hv
          exact Memory.wf_cons.mpr ⟨hb, hv, hlt, hm⟩
      · rename_i hab he
        refine Memory.wf_cons.mpr ⟨hb, hw, fun c hc => ?_, ih hm⟩
        rcases Memory.mem_write hc with h | h
        · omega
        · exact hlt c h

/-- The memory of construction is in canonical form. -/
theorem construct_mem_wf (g : Vector Byte 7) : (State.construct g).mem.wf = true := rfl

/-- `MemWrite` keeps the canonical form. -/
theorem memWrite_wf {a : Nat} {v : Byte} {s t : State} (hwf : s.mem.wf = true) (h : memWrite a v s = .ok t) :
    t.mem.wf = true := by
  unfold memWrite at h
  split at h
  · rename_i ha
    cases h
    exact Memory.write_wf hwf ha v
  · cases h

/-- The loader's write keeps the canonical form. -/
theorem loadByte_wf {a : Nat} {v : Byte} {s t : State} (hwf : s.mem.wf = true) (h : loadByte a v s = .next t) :
    t.mem.wf = true := by
  unfold loadByte at h
  split at h
  · rename_i ha
    cases h
    exact Memory.write_wf hwf ha v
  · cases h

/-- Storing bytes that lie in the address space keeps the canonical form. -/
theorem storeBytes_wf {l : List Byte} {a : Nat} {m : Memory} (hwf : m.wf = true) (h : a + l.length ≤ Config.memSize) :
    (storeBytes l a m).wf = true := by
  induction l generalizing a m with
  | nil => exact hwf
  | cons b l ih =>
    simp only [List.length_cons] at h
    exact ih (Memory.write_wf hwf (by omega) b) (by omega)

/-- A machine made ready to fetch a word keeps the canonical form. -/
theorem withFetchWord_wf {s : State} (nbits w : Nat) (hwf : s.mem.wf = true) :
    (s.withFetchWord nbits w).mem.wf = true := by
  refine storeBytes_wf hwf ?_
  simp only [tableBytes, List.length_cons, List.length_nil, fetchSlot]
  split <;> simp_all [Config.memSize]

end Sys2Proof.Machine
end

