-- ==== Sys2Proof/Laws/State.lean ====
section
/-! SUPPORT. One lemma per field per update of State, and the laws of the register file. -/

namespace Sys2Proof.Machine

variable (s : State)

@[simp] theorem State.setReg_mem (i : RegIdx) (v : Byte) : (s.setReg i v).mem = s.mem := rfl
@[simp] theorem State.setReg_pc (i : RegIdx) (v : Byte) : (s.setReg i v).pc = s.pc := rfl
@[simp] theorem State.setReg_E (i : RegIdx) (v : Byte) : (s.setReg i v).E = s.E := rfl
@[simp] theorem State.setReg_status (i : RegIdx) (v : Byte) : (s.setReg i v).status = s.status := rfl
@[simp] theorem State.setReg_out (i : RegIdx) (v : Byte) : (s.setReg i v).out = s.out := rfl

@[simp] theorem State.setSp_mem (v : Byte) : (s.setSp v).mem = s.mem := rfl
@[simp] theorem State.setSp_pc (v : Byte) : (s.setSp v).pc = s.pc := rfl
@[simp] theorem State.setSp_E (v : Byte) : (s.setSp v).E = s.E := rfl
@[simp] theorem State.setSp_status (v : Byte) : (s.setSp v).status = s.status := rfl
@[simp] theorem State.setSp_out (v : Byte) : (s.setSp v).out = s.out := rfl

@[simp] theorem State.setPc_mem (p : Nat) : (s.setPc p).mem = s.mem := rfl
@[simp] theorem State.setPc_x (p : Nat) : (s.setPc p).x = s.x := rfl
@[simp] theorem State.setPc_pc (p : Nat) : (s.setPc p).pc = p := rfl
@[simp] theorem State.setPc_E (p : Nat) : (s.setPc p).E = s.E := rfl
@[simp] theorem State.setPc_status (p : Nat) : (s.setPc p).status = s.status := rfl
@[simp] theorem State.setPc_out (p : Nat) : (s.setPc p).out = s.out := rfl
@[simp] theorem State.setPc_reg (p : Nat) (i : RegIdx) : (s.setPc p).reg i = s.reg i := rfl
@[simp] theorem State.setPc_sp (p : Nat) : (s.setPc p).sp = s.sp := rfl

@[simp] theorem State.advance_mem (n : Nat) : (s.advance n).mem = s.mem := rfl
@[simp] theorem State.advance_x (n : Nat) : (s.advance n).x = s.x := rfl
@[simp] theorem State.advance_pc (n : Nat) : (s.advance n).pc = s.pc + n := rfl
@[simp] theorem State.advance_E (n : Nat) : (s.advance n).E = s.E := rfl
@[simp] theorem State.advance_status (n : Nat) : (s.advance n).status = s.status := rfl
@[simp] theorem State.advance_out (n : Nat) : (s.advance n).out = s.out := rfl
@[simp] theorem State.advance_reg (n : Nat) (i : RegIdx) : (s.advance n).reg i = s.reg i := rfl
@[simp] theorem State.advance_sp (n : Nat) : (s.advance n).sp = s.sp := rfl

@[simp] theorem State.redirect_mem (v : Byte) : (s.redirect v).mem = s.mem := rfl
@[simp] theorem State.redirect_x (v : Byte) : (s.redirect v).x = s.x := rfl
@[simp] theorem State.redirect_pc (v : Byte) : (s.redirect v).pc = v.toNat := rfl
@[simp] theorem State.redirect_E (v : Byte) : (s.redirect v).E = s.E := rfl
@[simp] theorem State.redirect_status (v : Byte) : (s.redirect v).status = s.status := rfl
@[simp] theorem State.redirect_out (v : Byte) : (s.redirect v).out = s.out := rfl
@[simp] theorem State.redirect_reg (v : Byte) (i : RegIdx) : (s.redirect v).reg i = s.reg i := rfl
@[simp] theorem State.redirect_sp (v : Byte) : (s.redirect v).sp = s.sp := rfl

@[simp] theorem State.setE_mem (e : Bool) : (s.setE e).mem = s.mem := rfl
@[simp] theorem State.setE_x (e : Bool) : (s.setE e).x = s.x := rfl
@[simp] theorem State.setE_pc (e : Bool) : (s.setE e).pc = s.pc := rfl
@[simp] theorem State.setE_E (e : Bool) : (s.setE e).E = e := rfl
@[simp] theorem State.setE_status (e : Bool) : (s.setE e).status = s.status := rfl
@[simp] theorem State.setE_out (e : Bool) : (s.setE e).out = s.out := rfl
@[simp] theorem State.setE_reg (e : Bool) (i : RegIdx) : (s.setE e).reg i = s.reg i := rfl
@[simp] theorem State.setE_sp (e : Bool) : (s.setE e).sp = s.sp := rfl

@[simp] theorem State.setStatus_mem (st : Status) : (s.setStatus st).mem = s.mem := rfl
@[simp] theorem State.setStatus_x (st : Status) : (s.setStatus st).x = s.x := rfl
@[simp] theorem State.setStatus_pc (st : Status) : (s.setStatus st).pc = s.pc := rfl
@[simp] theorem State.setStatus_E (st : Status) : (s.setStatus st).E = s.E := rfl
@[simp] theorem State.setStatus_status (st : Status) : (s.setStatus st).status = st := rfl
@[simp] theorem State.setStatus_out (st : Status) : (s.setStatus st).out = s.out := rfl
@[simp] theorem State.setStatus_reg (st : Status) (i : RegIdx) : (s.setStatus st).reg i = s.reg i := rfl
@[simp] theorem State.setStatus_sp (st : Status) : (s.setStatus st).sp = s.sp := rfl

@[simp] theorem State.emit_mem (v : Byte) : (s.emit v).mem = s.mem := rfl
@[simp] theorem State.emit_x (v : Byte) : (s.emit v).x = s.x := rfl
@[simp] theorem State.emit_pc (v : Byte) : (s.emit v).pc = s.pc := rfl
@[simp] theorem State.emit_E (v : Byte) : (s.emit v).E = s.E := rfl
@[simp] theorem State.emit_status (v : Byte) : (s.emit v).status = s.status := rfl
@[simp] theorem State.emit_out (v : Byte) : (s.emit v).out = s.out ++ [v] := rfl
@[simp] theorem State.emit_reg (v : Byte) (i : RegIdx) : (s.emit v).reg i = s.reg i := rfl
@[simp] theorem State.emit_sp (v : Byte) : (s.emit v).sp = s.sp := rfl

@[simp] theorem State.setMem_mem (m : Memory) : (s.setMem m).mem = m := rfl
@[simp] theorem State.setMem_x (m : Memory) : (s.setMem m).x = s.x := rfl
@[simp] theorem State.setMem_pc (m : Memory) : (s.setMem m).pc = s.pc := rfl
@[simp] theorem State.setMem_E (m : Memory) : (s.setMem m).E = s.E := rfl
@[simp] theorem State.setMem_status (m : Memory) : (s.setMem m).status = s.status := rfl
@[simp] theorem State.setMem_out (m : Memory) : (s.setMem m).out = s.out := rfl
@[simp] theorem State.setMem_reg (m : Memory) (i : RegIdx) : (s.setMem m).reg i = s.reg i := rfl
@[simp] theorem State.setMem_sp (m : Memory) : (s.setMem m).sp = s.sp := rfl

/-! ### The register file -/

@[simp] theorem State.reg_setReg_same (i : RegIdx) (v : Byte) : (s.setReg i v).reg i = v := by
  simp [State.reg, State.setReg]

theorem State.reg_setReg_other {i j : RegIdx} (h : j ≠ i) (v : Byte) : (s.setReg i v).reg j = s.reg j := by
  have : (i : Nat) ≠ j := fun e => h (Fin.ext e.symm)
  simp [State.reg, State.setReg, this]

theorem State.reg_setReg (i j : RegIdx) (v : Byte) :
    (s.setReg i v).reg j = if j = i then v else s.reg j := by
  by_cases h : j = i
  · subst h; simp
  · simp [h, State.reg_setReg_other s h]

theorem State.setSp_eq_setReg (v : Byte) : s.setSp v = s.setReg Config.spIndex v := rfl

@[simp] theorem State.sp_setSp (v : Byte) : (s.setSp v).sp = v := State.reg_setReg_same s _ v

@[simp] theorem State.reg_spIndex : s.reg Config.spIndex = s.sp := rfl

@[simp] theorem State.reg_setSp_sp (v : Byte) : (s.setSp v).reg Config.spIndex = v := State.reg_setReg_same s _ v

theorem State.reg_setSp_other {j : RegIdx} (h : j ≠ Config.spIndex) (v : Byte) :
    (s.setSp v).reg j = s.reg j := State.reg_setReg_other s h v

theorem State.sp_setReg_other {i : RegIdx} (h : i ≠ Config.spIndex) (v : Byte) : (s.setReg i v).sp = s.sp :=
  State.reg_setReg_other s (Ne.symm h) v

/-- Two states are equal if every element of the tuple of R22 is, the registers one by one. -/
theorem State.ext_of_elements {s t : State} (hm : s.mem = t.mem) (hx : ∀ i, s.reg i = t.reg i) (hp : s.pc = t.pc)
    (he : s.E = t.E) (hs : s.status = t.status) (ho : s.out = t.out) : s = t := by
  have hv : s.x = t.x := Vector.ext fun i h => hx ⟨i, h⟩
  cases s; cases t; simp_all

/-- The construction value of R0..R6 is the draw (R35). -/
theorem construct_reg_gpr (g : Vector Byte 7) (i : Fin 7) : (State.construct g).reg (i.castLT (by omega)) = g[i] := by
  simp [State.reg, State.construct]

/-- The construction value of SP is `SP_INIT` (R11, R35). -/
theorem construct_sp (g : Vector Byte 7) : (State.construct g).sp = Config.spInit := by
  simp [State.sp, State.reg, State.construct, Config.spIndex]

end Sys2Proof.Machine
end

