-- ==== Sys2Proof/Laws/Ops.lean ====
section
/-! SUPPORT. One lemma per shared operation that says everything it can answer; callers cite it. -/

namespace Sys2Proof.Machine

/-- `complete` answers a next state exactly when the instruction gave one. -/
theorem complete_next {s t : State} {r : Except AbortReason State} : complete s r = .next t ↔ r = .ok t := by
  cases r <;> simp [complete, raiseFatalAbort]

/-- `complete` answers a fault exactly when the instruction raised, and it is the fatal abort with the earlier output. -/
theorem complete_fault {s : State} {r : Except AbortReason State} {f : Fault} :
    complete s r = .fault f ↔ ∃ reason, r = .error reason ∧ f = .fatalAbort reason s.out := by
  cases r <;> simp [complete, raiseFatalAbort, eq_comm]

/-- `complete` never refuses. -/
theorem complete_not_refused {s : State} {r : Except AbortReason State} {e : Refusal} : complete s r ≠ .refused e := by
  cases r <;> simp [complete, raiseFatalAbort]

/-- A sequence of two parts that raise or go on: it goes on exactly when both do. -/
theorem bind_ok {α β : Type} {x : Except AbortReason α} {f : α → Except AbortReason β} {b : β} :
    (x >>= f) = .ok b ↔ ∃ a, x = .ok a ∧ f a = .ok b := by
  cases x <;> simp [bind, Except.bind]

/-- A sequence of two parts raises what the first raises, or what the second does once the first went on. -/
theorem bind_error {α β : Type} {x : Except AbortReason α} {f : α → Except AbortReason β} {e : AbortReason} :
    (x >>= f) = .error e ↔ x = .error e ∨ ∃ a, x = .ok a ∧ f a = .error e := by
  cases x <;> simp [bind, Except.bind]

@[simp] theorem ok_bind {α β : Type} (a : α) (f : α → Except AbortReason β) :
    ((Except.ok a : Except AbortReason α) >>= f) = f a := rfl

@[simp] theorem error_bind {α β : Type} (e : AbortReason) (f : α → Except AbortReason β) :
    ((Except.error e : Except AbortReason α) >>= f) = .error e := rfl

/-- A register operand byte below 8 names that register (R54). -/
theorem regOperand_of_lt {b : Byte} (h : b.toNat < 8) : regOperand b = .ok ⟨b.toNat, h⟩ := by simp [regOperand, h]

/-- A register operand byte of 8 or more aborts (R54, R66). -/
theorem regOperand_of_ge {b : Byte} (h : 8 ≤ b.toNat) : regOperand b = .error (.regIndexOutOfRange b) := by
  simp [regOperand, Nat.not_lt.mpr h]

/-- What `regOperand` can answer. -/
theorem regOperand_ok {b : Byte} {i : RegIdx} : regOperand b = .ok i ↔ b.toNat = i.val := by
  unfold regOperand
  split
  · rename_i h
    simp [Fin.ext_iff]
  · have := i.isLt
    simp
    omega

theorem regOperand_error {b : Byte} {e : AbortReason} :
    regOperand b = .error e ↔ 8 ≤ b.toNat ∧ e = .regIndexOutOfRange b := by
  unfold regOperand
  split <;> simp [eq_comm] <;> omega

/-- What the two register operands of FRR can give. -/
theorem regOperands_ok {a b : Byte} {i j : RegIdx} :
    regOperands a b = .ok (i, j) ↔ a.toNat = i.val ∧ b.toNat = j.val := by
  rw [← regOperand_ok, ← regOperand_ok]
  unfold regOperands
  cases regOperand a <;> cases regOperand b <;> simp

/-- Which of the two operands is reported: the first that is out of range (R66, R100). -/
theorem regOperands_error {a b : Byte} {e : AbortReason} :
    regOperands a b = .error e ↔
      8 ≤ a.toNat ∧ e = .regIndexOutOfRange a ∨ a.toNat < 8 ∧ 8 ≤ b.toNat ∧ e = .regIndexOutOfRange b := by
  unfold regOperands
  rcases Nat.lt_or_ge a.toNat 8 with ha | ha
  · rcases Nat.lt_or_ge b.toNat 8 with hb | hb
    · simp [regOperand_of_lt ha, regOperand_of_lt hb]; omega
    · simp [regOperand_of_lt ha, regOperand_of_ge hb, Nat.not_le.mpr ha, ha, hb, eq_comm]
  · simp [regOperand_of_ge ha, Nat.not_lt.mpr ha, ha, eq_comm]

/-- What `MemRead` can answer (R17). -/
theorem memRead_ok {a : Nat} {s : State} {v : Byte} :
    memRead a s = .ok v ↔ a < Config.memSize ∧ v = s.mem.read a := by
  unfold memRead
  split <;> simp_all [eq_comm]

theorem memRead_error {a : Nat} {s : State} {e : AbortReason} :
    memRead a s = .error e ↔ Config.memSize ≤ a ∧ e = .memAddrOutOfRange a := by
  unfold memRead
  split <;> simp_all [eq_comm]

/-- A read at a byte address never aborts (R38). -/
theorem memRead_byte (v : Byte) (s : State) : memRead v.toNat s = .ok (s.mem.read v.toNat) := by
  have : v.toNat < Config.memSize := v.isLt
  simp only [memRead, if_pos this]

/-- What `MemWrite` can answer (R17). -/
theorem memWrite_ok {a : Nat} {v : Byte} {s t : State} :
    memWrite a v s = .ok t ↔ a < Config.memSize ∧ t = s.setMem (s.mem.write a v) := by
  unfold memWrite
  split <;> simp_all [eq_comm]

/-- A write at a byte address never aborts (R38). -/
theorem memWrite_byte (a v : Byte) (s : State) : memWrite a.toNat v s = .ok (s.setMem (s.mem.write a.toNat v)) := by
  have : a.toNat < Config.memSize := a.isLt
  simp only [memWrite, if_pos this]

/-- SP arithmetic within `0..255` gives that byte, and the byte's value is the integer. -/
theorem spChecked_ok {t : Int} {v : Byte} : spChecked t = .ok v ↔ (v.toNat : Int) = t := by
  have hv := v.isLt
  unfold spChecked
  split
  · simp; omega
  · rename_i h
    simp only [not_or, Int.not_lt] at h
    obtain ⟨n, rfl⟩ := Int.eq_ofNat_of_zero_le h.1
    simp only [Except.ok.injEq, BitVec.toNat_eq, Nat.cast_inj]
    rw [show BitVec.ofInt 8 (n : Int) = BitVec.ofNat 8 n from rfl, BitVec.toNat_ofNat, Nat.mod_eq_of_lt (by omega)]
    exact eq_comm

theorem spChecked_error {t : Int} {e : AbortReason} :
    spChecked t = .error e ↔ (t < 0 ∨ 255 < t) ∧ e = .spOutOfRange t := by
  unfold spChecked
  split <;> simp_all [eq_comm]

/-- The cell below the top of the stack. -/
theorem spBelow_ok {s : State} {v : Byte} : spBelow s = .ok v ↔ v.toNat + 1 = s.sp.toNat := by
  rw [spBelow, spChecked_ok]; omega

theorem spBelow_error {s : State} {e : AbortReason} :
    spBelow s = .error e ↔ s.sp.toNat = 0 ∧ e = .spOutOfRange (-1) := by
  have := s.sp.isLt
  rw [spBelow, spChecked_error]
  constructor
  · rintro ⟨h, rfl⟩
    have h0 : s.sp.toNat = 0 := by omega
    exact ⟨h0, by rw [h0]; rfl⟩
  · rintro ⟨h, rfl⟩
    exact ⟨by omega, by rw [h]; rfl⟩

/-- SP after a pop. -/
theorem spAbove_ok {s : State} {v : Byte} : spAbove s = .ok v ↔ v.toNat = s.sp.toNat + 1 := by
  rw [spAbove, spChecked_ok]; omega

theorem spAbove_error {s : State} {e : AbortReason} :
    spAbove s = .error e ↔ s.sp.toNat = 255 ∧ e = .spOutOfRange 256 := by
  have := s.sp.isLt
  rw [spAbove, spChecked_error]
  constructor
  · rintro ⟨h, rfl⟩
    have h0 : s.sp.toNat = 255 := by omega
    exact ⟨h0, by rw [h0]; rfl⟩
  · rintro ⟨h, rfl⟩
    exact ⟨by omega, by rw [h]; rfl⟩

/-- The return address fits a byte exactly up to `pc = 253` (R87). -/
theorem returnAddress_ok {s : State} {v : Byte} : returnAddress s = .ok v ↔ v.toNat = s.pc + 2 := by
  have hv := v.isLt
  unfold returnAddress
  split
  · simp; omega
  · simp only [Except.ok.injEq, BitVec.toNat_eq, BitVec.toNat_ofNat]
    rw [Nat.mod_eq_of_lt (by omega)]
    exact eq_comm

theorem returnAddress_error {s : State} {e : AbortReason} :
    returnAddress s = .error e ↔ 255 < s.pc + 2 ∧ e = .returnAddrOutOfRange (s.pc + 2) := by
  unfold returnAddress
  split <;> simp_all [eq_comm]

/-- The value of the ALU's sum (R78). -/
theorem aluAdd_toNat (u v : Byte) : (aluAdd u v).toNat = (u.toNat + v.toNat) % 256 := by simp [aluAdd]

/-- The value of the ALU's product (R78). -/
theorem aluMul_toNat (u v : Byte) : (aluMul u v).toNat = (u.toNat * v.toNat) % 256 := by simp [aluMul]

/-- The comparison decides equality (R78). -/
theorem aluEq_iff (u v : Byte) : aluEq u v = true ↔ u = v := by simp [aluEq]

end Sys2Proof.Machine
end

