-- ==== Sys2Proof/Laws/Decode.lean ====
section
/-! SUPPORT. The laws of the catalog and of the decoder's parts. -/

namespace Sys2Proof

/-- The default opcodes are fourteen distinct bytes (R52). -/
theorem defaultOpc_injective : Opc.Injective defaultOpc := by
  intro m n h
  cases m <;> cases n <;> first | rfl | exact absurd h (by decide)

/-- Every mnemonic is in the catalog. -/
theorem mem_catalog (m : Mnemonic) : m ∈ Mnemonic.catalog := by cases m <;> decide

/-- The catalog gives back the instruction of an opcode byte. -/
theorem lookupOpcode_opc {opc : Opc} (h : opc.Injective) (m : Mnemonic) : lookupOpcode opc (opc m) = some m := by
  unfold lookupOpcode
  cases hf : Mnemonic.catalog.find? (fun n => opc n == opc m) with
  | none =>
    have := List.find?_eq_none.mp hf m (mem_catalog m)
    simp at this
  | some n =>
    have := List.find?_some hf
    simp only [beq_iff_eq] at this
    rw [h n m this]

/-- What the catalog gives is an instruction with that opcode. -/
theorem lookupOpcode_some {opc : Opc} {op : Byte} {m : Mnemonic} (h : lookupOpcode opc op = some m) : opc m = op := by
  have := List.find?_some h
  simpa using this

/-- A byte outside the catalog is the opcode of no instruction (R57). -/
theorem lookupOpcode_none {opc : Opc} {op : Byte} : lookupOpcode opc op = none ↔ ∀ m : Mnemonic, opc m ≠ op := by
  unfold lookupOpcode
  rw [List.find?_eq_none]
  simp only [beq_iff_eq]
  exact ⟨fun h m => h m (mem_catalog m), fun h m _ => h m⟩

/-- The mnemonic of a built instruction. -/
@[simp] theorem build_mnemonic (m : Mnemonic) (b1 b2 : Byte) : (m.build b1 b2).mnemonic = m := by cases m <;> rfl

/-- A built instruction has the operand bytes its format takes. -/
theorem build_operands (m : Mnemonic) (b1 b2 : Byte) : (m.build b1 b2).operands = [b1, b2].take m.operandCount := by
  cases m <;> rfl

/-- Every instruction is built from its mnemonic and its operand bytes. -/
theorem build_of_instr (i : Instr) : i.mnemonic.build (i.operands.getD 0 0#8) (i.operands.getD 1 0#8) = i := by
  cases i <;> rfl

/-- An instruction has as many operand bytes as its mnemonic says. -/
theorem operands_length (i : Instr) : i.operands.length = i.mnemonic.operandCount := by cases i <;> rfl

/-- No instruction has more than two operand bytes (R12). -/
theorem operandCount_le (m : Mnemonic) : m.operandCount ≤ 2 := by cases m <;> decide

theorem operandByte_of_le {ε : Type} {read : Nat → Except ε Byte} {n k : Nat} (h : k ≤ n) :
    operandByte read n k = read k := if_pos h

theorem operandByte_of_lt {ε : Type} {read : Nat → Except ε Byte} {n k : Nat} (h : n < k) :
    operandByte read n k = .ok 0#8 := if_neg (by omega)

/-- What it takes for the decoder to give an instruction. -/
theorem decodeBy_ok {ε : Type} {opc : Opc} {read : Nat → Except ε Byte} {i : Instr} :
    decodeBy opc read = .ok i ↔
      ∃ op m b1 b2, read 0 = .ok op ∧ lookupOpcode opc op = some m ∧ operandByte read m.operandCount 1 = .ok b1 ∧
        operandByte read m.operandCount 2 = .ok b2 ∧ i = m.build b1 b2 := by
  unfold decodeBy
  cases h0 : read 0 with
  | error e => simp
  | ok op =>
    cases hm : lookupOpcode opc op with
    | none => simp [hm]
    | some m =>
      cases h1 : operandByte read m.operandCount 1 with
      | error e => simp [hm, h1]
      | ok b1 =>
        cases h2 : operandByte read m.operandCount 2 with
        | error e => simp [hm, h1, h2]
        | ok b2 => simp [hm, h1, h2, eq_comm]

/-- The decoder finds an unknown opcode exactly when the first byte is read and is not in the catalog. -/
theorem decodeBy_unknownOpcode {ε : Type} {opc : Opc} {read : Nat → Except ε Byte} {op : Byte} :
    decodeBy opc read = .error (.unknownOpcode op) ↔ read 0 = .ok op ∧ lookupOpcode opc op = none := by
  refine ⟨fun h => ?_, fun ⟨h0, hm⟩ => by simp [decodeBy, h0, hm]⟩
  unfold decodeBy at h
  split at h
  · cases h
  · rename_i h0
    split at h
    · rename_i hm
      cases h
      exact ⟨h0, hm⟩
    · split at h
      · cases h
      · split at h <;> cases h

/-- The decoder depends on its reader at offsets 0, 1 and 2 only. -/
theorem decodeBy_congr {ε : Type} {opc : Opc} {r r' : Nat → Except ε Byte} (h : ∀ k ≤ 2, r k = r' k) :
    decodeBy opc r = decodeBy opc r' := by
  have ho (n k : Nat) (hk : k ≤ 2) : operandByte r n k = operandByte r' n k := by simp [operandByte, h k hk]
  simp only [decodeBy, h 0 (by omega), ho _ 1 (by omega), ho _ 2 (by omega)]

end Sys2Proof
end

