-- ==== Sys2Proof/Laws/PerInstr.lean ====
section
/-! SUPPORT. The family `EncodingLength`: the encoding of every instruction is `1 + n` bytes, the opcode byte first, where `n` is
the operand count of its format (R12, R50, R56). -/

namespace Sys2Proof.Laws.EncodingLength

/-- The encoding begins with the opcode byte and has the length of the instruction's catalog entry, under any `OPC`. -/
def Statement (i : Instr) : Prop :=
  ∀ opc : Opc, (encodeWith opc i).head? = some (opc i.mnemonic) ∧ (encodeWith opc i).length = i.mnemonic.length

theorem nop : Statement .nop := fun _ => ⟨rfl, rfl⟩
theorem hlt : Statement .hlt := fun _ => ⟨rfl, rfl⟩
theorem ldi (r imm : Byte) : Statement (.ldi r imm) := fun _ => ⟨rfl, rfl⟩
theorem prn (r : Byte) : Statement (.prn r) := fun _ => ⟨rfl, rfl⟩
theorem add (a b : Byte) : Statement (.add a b) := fun _ => ⟨rfl, rfl⟩
theorem mul (a b : Byte) : Statement (.mul a b) := fun _ => ⟨rfl, rfl⟩
theorem cmp (a b : Byte) : Statement (.cmp a b) := fun _ => ⟨rfl, rfl⟩
theorem push (r : Byte) : Statement (.push r) := fun _ => ⟨rfl, rfl⟩
theorem pop (r : Byte) : Statement (.pop r) := fun _ => ⟨rfl, rfl⟩
theorem call (r : Byte) : Statement (.call r) := fun _ => ⟨rfl, rfl⟩
theorem ret : Statement .ret := fun _ => ⟨rfl, rfl⟩
theorem jmp (r : Byte) : Statement (.jmp r) := fun _ => ⟨rfl, rfl⟩
theorem jeq (r : Byte) : Statement (.jeq r) := fun _ => ⟨rfl, rfl⟩
theorem jne (r : Byte) : Statement (.jne r) := fun _ => ⟨rfl, rfl⟩

end Sys2Proof.Laws.EncodingLength
end

