-- ==== Sys2Proof/Laws/Session.lean ====
section
/-! SUPPORT. What a transaction and a list of transactions can answer, said once. -/

namespace Sys2Proof.Machine

@[simp] theorem mapNext_next {σ τ : Type} (f : σ → τ) (t : σ) : mapNext f (.next t) = .next (f t) := rfl
@[simp] theorem mapNext_fault {σ τ : Type} (f : σ → τ) (e : Fault) : mapNext f (.fault e) = .fault e := rfl
@[simp] theorem mapNext_refused {σ τ : Type} (f : σ → τ) (r : Refusal) : mapNext f (.refused r) = .refused r := rfl

/-- A mapped outcome goes on exactly when the outcome does. -/
theorem mapNext_eq_next {σ τ : Type} {f : σ → τ} {o : Host.Outcome σ Fault Refusal} {u : τ} :
    mapNext f o = .next u ↔ ∃ t, o = .next t ∧ u = f t := by
  cases o <;> simp [mapNext, eq_comm]

/-- What the loader's write can answer as a next state (R113). -/
theorem loadByte_next {a : Nat} {v : Byte} {s t : State} :
    loadByte a v s = .next t ↔ a < Config.memSize ∧ t = s.setMem (s.mem.write a v) := by
  unfold loadByte
  split <;> simp_all [eq_comm]

/-- Everything a transaction can do when it is admitted: a load or the start of the run, of a session that has not started. -/
theorem request_next {opc : Opc} {ss tt : Session} {q : Request} :
    ss.request opc q = .next tt ↔
      ∃ s, ss = .loading s ∧
        ((∃ a v, q = .load a v ∧ a < Config.memSize ∧ tt = .loading (s.setMem (s.mem.write a v))) ∨
          ∃ fuel t, q = .run fuel ∧ runWith opc fuel s = .next t ∧ tt = .started t) := by
  cases ss with
  | started s => cases q <;> simp [Session.request, Session.load, Session.run]
  | loading s =>
    cases q with
    | load a v => simp [Session.request, Session.load, mapNext_eq_next, loadByte_next]
    | run fuel => simp [Session.request, Session.run, mapNext_eq_next]

@[simp] theorem requests_nil (opc : Opc) (ss : Session) : Session.requests opc [] ss = .next ss := rfl

/-- A non-empty list of transactions is admitted exactly when the first is and the others are after it. -/
theorem requests_cons_next {opc : Opc} {ss tt : Session} {q : Request} {l : List Request} :
    Session.requests opc (q :: l) ss = .next tt ↔ ∃ uu, ss.request opc q = .next uu ∧ Session.requests opc l uu = .next tt := by
  rw [Session.requests]
  cases ss.request opc q <;> simp

/-- The loads of an image, one by one at the port, do what `loadFrom` does, and what follows goes on from there. -/
theorem requests_imageLoads (opc : Opc) (rest : List Request) (image : List Byte) (a : Nat) (s : State) :
    Session.requests opc (imageLoads a image ++ rest) (.loading s) =
      match loadFrom a image s with
      | .next t => Session.requests opc rest (.loading t)
      | .fault f => .fault f
      | .refused r => .refused r := by
  induction image generalizing a s with
  | nil => rfl
  | cons b l ih =>
    simp only [imageLoads, List.cons_append, Session.requests, Session.request, Session.load, loadFrom]
    cases loadByte a b s with
    | next t => exact ih (a + 1) t
    | fault f => rfl
    | refused r => rfl

end Sys2Proof.Machine
end

