-- ==== Sys2Proof/Laws/Step.lean ====
section
/-! SUPPORT. What each meaning and the step can do, said once. -/

namespace Sys2Proof.Machine

/-- Everything ADD and MUL can answer as a next state. -/
theorem aluWrite_next {f : Byte → Byte → Byte} {a b : Byte} {s t : State} :
    aluWrite f a b s = .next t ↔
      ∃ i j : RegIdx, a.toNat = i.val ∧ b.toNat = j.val ∧ t = (s.setReg i (f (s.reg i) (s.reg j))).advance 3 := by
  simp only [aluWrite, complete_next, bind_ok, Prod.exists, regOperands_ok, Except.ok.injEq, eq_comm (b := t), and_assoc]

/-- Everything a conditional branch can answer as a next state. -/
theorem branchIf_next {taken : Bool} {r : Byte} {s t : State} :
    branchIf taken r s = .next t ↔
      ∃ i : RegIdx, r.toNat = i.val ∧ t = if taken then s.redirect (s.reg i) else s.advance 2 := by
  simp only [branchIf, complete_next, bind_ok, regOperand_ok, Except.ok.injEq, eq_comm (b := t)]

theorem execNop_next {s t : State} : execNop s = .next t ↔ t = s.advance 1 := by
  rw [execNop, complete_next, Except.ok.injEq, eq_comm]

theorem execHlt_next {s t : State} : execHlt s = .next t ↔ t = (s.advance 1).setStatus .halted := by
  rw [execHlt, complete_next, Except.ok.injEq, eq_comm]

theorem execLdi_next {r imm : Byte} {s t : State} :
    execLdi r imm s = .next t ↔ ∃ i : RegIdx, r.toNat = i.val ∧ t = (s.setReg i imm).advance 3 := by
  simp only [execLdi, complete_next, bind_ok, regOperand_ok, Except.ok.injEq, eq_comm (b := t)]

theorem execPrn_next {r : Byte} {s t : State} :
    execPrn r s = .next t ↔ ∃ i : RegIdx, r.toNat = i.val ∧ t = (s.emit (s.reg i)).advance 2 := by
  simp only [execPrn, complete_next, bind_ok, regOperand_ok, Except.ok.injEq, eq_comm (b := t)]

theorem execCmp_next {a b : Byte} {s t : State} :
    execCmp a b s = .next t ↔
      ∃ i j : RegIdx, a.toNat = i.val ∧ b.toNat = j.val ∧ t = (s.setE (aluEq (s.reg i) (s.reg j))).advance 3 := by
  simp only [execCmp, complete_next, bind_ok, Prod.exists, regOperands_ok, Except.ok.injEq, eq_comm (b := t), and_assoc]

theorem execPush_next {r : Byte} {s t : State} :
    execPush r s = .next t ↔
      ∃ (i : RegIdx) (d : Byte), r.toNat = i.val ∧ d.toNat + 1 = s.sp.toNat ∧
        t = ((s.setSp d).setMem (s.mem.write d.toNat ((s.setSp d).reg i))).advance 2 := by
  simp only [execPush, complete_next, bind_ok, regOperand_ok, spBelow_ok, memWrite_byte, ok_bind, Except.ok.injEq,
    eq_comm (b := t)]
  exact ⟨fun ⟨i, hi, d, hd, h⟩ => ⟨i, d, hi, hd, h⟩, fun ⟨i, d, hi, hd, h⟩ => ⟨i, hi, d, hd, h⟩⟩

theorem execPop_next {r : Byte} {s t : State} :
    execPop r s = .next t ↔
      ∃ (i : RegIdx) (u : Byte), r.toNat = i.val ∧ u.toNat = (s.setReg i (s.mem.read s.sp.toNat)).sp.toNat + 1 ∧
        t = ((s.setReg i (s.mem.read s.sp.toNat)).setSp u).advance 2 := by
  simp only [execPop, complete_next, bind_ok, regOperand_ok, memRead_byte, ok_bind, spAbove_ok, Except.ok.injEq,
    eq_comm (b := t)]
  exact ⟨fun ⟨i, hi, d, hd, h⟩ => ⟨i, d, hi, hd, h⟩, fun ⟨i, d, hi, hd, h⟩ => ⟨i, hi, d, hd, h⟩⟩

theorem execCall_next {r : Byte} {s t : State} :
    execCall r s = .next t ↔
      ∃ (i : RegIdx) (d ret : Byte), r.toNat = i.val ∧ d.toNat + 1 = s.sp.toNat ∧ ret.toNat = s.pc + 2 ∧
        t = ((s.setMem (s.mem.write d.toNat ret)).setSp d).redirect ((s.setSp d).reg i) := by
  simp only [execCall, complete_next, bind_ok, regOperand_ok, spBelow_ok, returnAddress_ok, memWrite_byte, ok_bind,
    Except.ok.injEq, eq_comm (b := t)]
  exact ⟨fun ⟨i, hi, d, hd, e, he, h⟩ => ⟨i, d, e, hi, hd, he, h⟩, fun ⟨i, d, e, hi, hd, he, h⟩ => ⟨i, hi, d, hd, e, he, h⟩⟩

theorem execRet_next {s t : State} :
    execRet s = .next t ↔
      ∃ u : Byte, u.toNat = s.sp.toNat + 1 ∧ t = (s.redirect (s.mem.read s.sp.toNat)).setSp u := by
  simp only [execRet, complete_next, bind_ok, memRead_byte, ok_bind, spAbove_ok, Except.ok.injEq, eq_comm (b := t)]

theorem execJmp_next {r : Byte} {s t : State} :
    execJmp r s = .next t ↔ ∃ i : RegIdx, r.toNat = i.val ∧ t = s.redirect (s.reg i) := by
  simp only [execJmp, complete_next, bind_ok, regOperand_ok, Except.ok.injEq, eq_comm (b := t)]

/-- Every meaning answers a next state or a fatal abort with the earlier output; none refuses. -/
theorem exec_next_or_abort (i : Instr) (s : State) :
    (∃ t, exec i s = .next t) ∨ ∃ reason, exec i s = .fault (.fatalAbort reason s.out) := by
  have key (r : Except AbortReason State) :
      (∃ t, complete s r = .next t) ∨ ∃ reason, complete s r = .fault (.fatalAbort reason s.out) := by
    cases r with
    | ok t => exact .inl ⟨t, rfl⟩
    | error e => exact .inr ⟨e, rfl⟩
  cases i with
  | nop => exact key (.ok _)
  | hlt => exact key (.ok _)
  | _ => exact key _

/-- A single byte at the pc. -/
theorem bytesAt_singleton {s : State} {b : Byte} : s.BytesAt [b] ↔ s.pc < Config.memSize ∧ s.mem.read s.pc = b := by
  constructor
  · intro h
    simpa using h ⟨0, by simp⟩
  · rintro ⟨h, h'⟩ k
    have hk : k = ⟨0, by simp⟩ := by
      have := k.isLt
      simp only [List.length_singleton] at this
      exact Fin.ext (by show k.val = 0; omega)
    subst hk
    exact ⟨h, h'⟩

/-- An instruction is fetched only if all its bytes are in memory, its opcode at the pc. -/
theorem fetchWith_ok {opc : Opc} {s : State} {i : Instr} (h : fetchWith opc s = .ok i) :
    s.pc + i.mnemonic.length ≤ Config.memSize ∧ s.mem.read s.pc = opc i.mnemonic := by
  obtain ⟨op, m, b1, b2, h0, hm, h1, h2, rfl⟩ := decodeBy_ok.mp h
  obtain ⟨hp, hop⟩ := memRead_ok.mp h0
  have hn := operandCount_le m
  simp only [build_mnemonic, Mnemonic.length, Config.memSize, Nat.add_zero] at *
  refine ⟨?_, by rw [lookupOpcode_some hm]; exact hop.symm⟩
  by_cases hn1 : 1 ≤ m.operandCount
  · rw [operandByte_of_le hn1] at h1
    have := (memRead_ok.mp h1).1
    by_cases hn2 : 2 ≤ m.operandCount
    · rw [operandByte_of_le hn2] at h2
      have := (memRead_ok.mp h2).1
      simp only [Config.memSize] at *
      omega
    · simp only [Config.memSize] at *
      omega
  · omega

/-- The fetch finds an unknown opcode exactly when a byte at the pc is the opcode of no instruction. -/
theorem fetchWith_unknownOpcode {opc : Opc} {s : State} {op : Byte} :
    fetchWith opc s = .error (.unknownOpcode op) ↔
      s.pc < Config.memSize ∧ s.mem.read s.pc = op ∧ ∀ m : Mnemonic, opc m ≠ op := by
  rw [← lookupOpcode_none, fetchWith, decodeBy_unknownOpcode, memRead_ok, Nat.add_zero, and_assoc, eq_comm (a := op)]

/-- The fetch aborts only at an address past the end of memory. -/
theorem fetchWith_unreadable {opc : Opc} {s : State} {e : AbortReason}
    (h : fetchWith opc s = .error (.unreadable e)) :
    ∃ k ≤ 2, Config.memSize ≤ s.pc + k ∧ e = .memAddrOutOfRange (s.pc + k) := by
  have opnd {n k : Nat} {e : AbortReason}
      (h : operandByte (fun k => memRead (s.pc + k) s) n k = .error e) :
      Config.memSize ≤ s.pc + k ∧ e = .memAddrOutOfRange (s.pc + k) := by
    unfold operandByte at h
    split at h
    · exact memRead_error.mp h
    · cases h
  unfold fetchWith decodeBy at h
  split at h
  · rename_i h0
    cases h
    exact ⟨0, by omega, memRead_error.mp h0⟩
  · split at h
    · cases h
    · split at h
      · rename_i h1
        cases h
        exact ⟨1, by omega, opnd h1⟩
      · split at h
        · rename_i h2
          cases h
          exact ⟨2, by omega, opnd h2⟩
        · cases h

/-- Every handler keeps the memory in canonical form. -/
theorem exec_keeps_mem_wf {i : Instr} {s t : State} (hwf : s.mem.wf = true) (h : exec i s = .next t) :
    t.mem.wf = true := by
  cases i with
  | nop => rw [execNop_next.mp h]; exact hwf
  | hlt => rw [execHlt_next.mp h]; exact hwf
  | ldi r imm => obtain ⟨_, _, rfl⟩ := execLdi_next.mp h; exact hwf
  | prn r => obtain ⟨_, _, rfl⟩ := execPrn_next.mp h; exact hwf
  | add a b => obtain ⟨_, _, _, _, rfl⟩ := aluWrite_next.mp h; exact hwf
  | mul a b => obtain ⟨_, _, _, _, rfl⟩ := aluWrite_next.mp h; exact hwf
  | cmp a b => obtain ⟨_, _, _, _, rfl⟩ := execCmp_next.mp h; exact hwf
  | push r => obtain ⟨_, d, _, _, rfl⟩ := execPush_next.mp h; exact Memory.write_wf hwf d.isLt _
  | pop r => obtain ⟨_, _, _, _, rfl⟩ := execPop_next.mp h; exact hwf
  | call r => obtain ⟨_, d, _, _, _, _, rfl⟩ := execCall_next.mp h; exact Memory.write_wf hwf d.isLt _
  | ret => obtain ⟨_, _, rfl⟩ := execRet_next.mp h; exact hwf
  | jmp r => obtain ⟨_, _, rfl⟩ := execJmp_next.mp h; exact hwf
  | jeq r => obtain ⟨_, _, rfl⟩ := branchIf_next.mp h; split <;> exact hwf
  | jne r => obtain ⟨_, _, rfl⟩ := branchIf_next.mp h; split <;> exact hwf

/-- What a step can do: run the fetched instruction, halt on an unknown opcode, abort in the fetch, or have no step. -/
theorem stepWith_cases (opc : Opc) (s : State) :
    (∃ i, s.status = .running ∧ fetchWith opc s = .ok i ∧ stepWith opc s = exec i s) ∨
    (∃ op, s.status = .running ∧ fetchWith opc s = .error (.unknownOpcode op) ∧ stepWith opc s = haltUnknown op s) ∨
    (∃ e, s.status = .running ∧ fetchWith opc s = .error (.unreadable e) ∧ stepWith opc s = raiseFatalAbort e s) ∨
    (s.status ≠ .running ∧ stepWith opc s = noStep s) := by
  unfold stepWith
  cases hs : s.status with
  | running =>
    cases hf : fetchWith opc s with
    | ok i => exact .inl ⟨i, rfl, rfl, rfl⟩
    | error e =>
      cases e with
      | unreadable e => exact .inr (.inr (.inl ⟨e, rfl, rfl, rfl⟩))
      | unknownOpcode op => exact .inr (.inl ⟨op, rfl, rfl, rfl⟩)
  | halted => exact .inr (.inr (.inr ⟨by simp, rfl⟩))
  | haltedUnknown op at_ => exact .inr (.inr (.inr ⟨by simp, rfl⟩))
  | aborted e => exact .inr (.inr (.inr ⟨by simp, rfl⟩))

end Sys2Proof.Machine
end

