-- ==== Sys2Proof/Tests/Slice0.lean ====
section
/-! SUPPORT. The model's own tests, each on one step of a small state, with the expected result taken from the spec (the source is
named in its comment: T1, S2, ... are vectors of spec/95_test_vectors.md), and a witness for the hypotheses of every statement. -/

namespace Sys2Proof.Tests
open Sys2Proof Sys2Proof.Machine

/-- The bytes `l` at address `p`, the pc there, the registers R0..R6 and SP as given; the rest as at construction. -/
def at_ (p : Nat) (l : List Byte) (g : Vector Byte 7 := Config.gprInit) (sp : Byte := 0xF4#8) : State :=
  { State.reset with pc := p, mem := storeBytes l p [], x := g.push sp }

/-- The next state of a step, if there is one. -/
def nextOf : StepOutcome → Option State
  | .next t => some t
  | .fault _ => none
  | .refused _ => none

/-- The reason of a fatal abort, if the outcome is one. -/
def abortOf : StepOutcome → Option AbortReason
  | .fault (.fatalAbort reason _) => some reason
  | _ => none

/-! ### Well-formedness: each check refuses an ill-formed term -/

theorem test_wellFormed_refuses_ldi_r8 : (Instr.ldi 8#8 0#8).wellFormed = false := by decide
theorem test_wellFormed_refuses_prn_r8 : (Instr.prn 8#8).wellFormed = false := by decide
theorem test_wellFormed_refuses_add_a8 : (Instr.add 8#8 0#8).wellFormed = false := by decide
theorem test_wellFormed_refuses_add_b8 : (Instr.add 0#8 8#8).wellFormed = false := by decide
theorem test_wellFormed_refuses_mul_b255 : (Instr.mul 7#8 255#8).wellFormed = false := by decide
theorem test_wellFormed_refuses_cmp_a8 : (Instr.cmp 8#8 8#8).wellFormed = false := by decide
theorem test_wellFormed_refuses_push_r8 : (Instr.push 8#8).wellFormed = false := by decide
theorem test_wellFormed_refuses_pop_r8 : (Instr.pop 8#8).wellFormed = false := by decide
theorem test_wellFormed_refuses_call_r8 : (Instr.call 8#8).wellFormed = false := by decide
theorem test_wellFormed_refuses_jmp_r8 : (Instr.jmp 8#8).wellFormed = false := by decide
theorem test_wellFormed_refuses_jeq_r8 : (Instr.jeq 8#8).wellFormed = false := by decide
theorem test_wellFormed_refuses_jne_r8 : (Instr.jne 8#8).wellFormed = false := by decide
/-- Any immediate is well formed (R55, R58). -/
theorem test_wellFormed_accepts_any_immediate : (Instr.ldi 7#8 255#8).wellFormed = true := by decide

/-! ### Decoding: words written out bit by bit from R51 and R52 -/

theorem test_decode_nop : decode [0b00000000#8] = .ok (.nop, []) := by rfl
theorem test_decode_hlt : decode [0b00000001#8] = .ok (.hlt, []) := by rfl
theorem test_decode_ldi : decode [0b10000010#8, 0b00000001#8, 0b00001010#8] = .ok (.ldi 1#8 10#8, []) := by rfl
theorem test_decode_prn : decode [0b01000111#8, 0b00000111#8] = .ok (.prn 7#8, []) := by rfl
theorem test_decode_add : decode [0b10100000#8, 0b00000000#8, 0b00000001#8] = .ok (.add 0#8 1#8, []) := by rfl
theorem test_decode_mul : decode [0b10100010#8, 0b00000010#8, 0b00000011#8] = .ok (.mul 2#8 3#8, []) := by rfl
theorem test_decode_cmp : decode [0b10100111#8, 0b00000100#8, 0b00000101#8] = .ok (.cmp 4#8 5#8, []) := by rfl
theorem test_decode_push : decode [0b01000101#8, 0b00000110#8] = .ok (.push 6#8, []) := by rfl
theorem test_decode_pop : decode [0b01000110#8, 0b00000010#8] = .ok (.pop 2#8, []) := by rfl
theorem test_decode_call : decode [0b01010000#8, 0b00000001#8] = .ok (.call 1#8, []) := by rfl
theorem test_decode_ret : decode [0b00010001#8] = .ok (.ret, []) := by rfl
theorem test_decode_jmp : decode [0b01010100#8, 0b00000100#8] = .ok (.jmp 4#8, []) := by rfl
theorem test_decode_jeq : decode [0b01010101#8, 0b00000011#8] = .ok (.jeq 3#8, []) := by rfl
theorem test_decode_jne : decode [0b01010110#8, 0b00000011#8] = .ok (.jne 3#8, []) := by rfl
/-- `0xA1` is subtract in the teaching machine's wider set and unknown here (R57, C1). -/
theorem test_decode_subtract_unknown : decode [0xA1#8, 0#8, 1#8] = .error (.unknownOpcode 0xA1#8) := by rfl
/-- A table word: operand byte 1 is bits 15..8, operand byte 2 bits 23..16; bits past `nbits` are zero. -/
theorem test_decodeTableWord : decodeTableWord 24 0x0A0182 = some (.ldi 1#8 10#8) ∧
    decodeTableWord 8 0xFFFF82 = some (.ldi 0#8 0#8) ∧ decodeTableWord 8 0xA1 = none := by decide
/-- The word placed at reset is the instruction the next step runs. -/
theorem test_withFetchWord :
    (nextOf (step (State.reset.withFetchWord 24 0x0A0182))).map (fun t => (t.x[1], t.pc)) = some (10#8, 3) := by decide

/-! ### The step -/

/-- L1: an unknown opcode halts, and only the status changes. -/
theorem test_step_unknown : nextOf (step (at_ 3 [0xA1#8])) =
    some { at_ 3 [0xA1#8] with status := .haltedUnknown 0xA1#8 3 } := by decide
/-- L2: the opcode fetch at 256 aborts. -/
theorem test_step_fetch_at_256 : abortOf (step (at_ 256 [])) = some (.memAddrOutOfRange 256) := by decide
/-- L4: a halted machine has no step. -/
theorem test_step_halted : step { State.reset with status := .halted } = .fault (.notRunning .halted) := by rfl
/-- L6: the first register operand is checked first. -/
theorem test_step_first_operand : abortOf (step (at_ 0 [0xA0#8, 9#8, 8#8])) = some (.regIndexOutOfRange 9#8) := by decide

/-- N1, N2: NOP advances by one, past the last cell too. -/
theorem test_nop : (nextOf (step (at_ 255 [0x00#8]))).map (·.pc) = some 256 := by decide
/-- N4: HLT at 255 halts with the pc at 256. -/
theorem test_hlt : (nextOf (step (at_ 255 [0x01#8]))).map (fun t => (t.pc, t.status)) = some (256, .halted) := by decide
/-- N5, N6: LDI loads any byte, SP included. -/
theorem test_ldi : (nextOf (step (at_ 0 [0x82#8, 7#8, 0#8]))).map (fun t => (t.x[7], t.pc)) = some (0#8, 3) := by decide
/-- N8: the second operand byte is not there. -/
theorem test_ldi_at_254 : abortOf (step (at_ 254 [0x82#8, 0#8])) = some (.memAddrOutOfRange 256) := by decide
/-- N11: PRN R7 emits SP, after what was emitted before. -/
theorem test_prn : (nextOf (step { at_ 9 [0x47#8, 7#8] with out := [1#8] })).map (fun t => (t.out, t.pc)) =
    some ([1#8, 244#8], 11) := by decide
/-- N12: a bad register emits nothing. -/
theorem test_prn_r9 : step (at_ 9 [0x47#8, 9#8]) = .fault (.fatalAbort (.regIndexOutOfRange 9#8) []) := by rfl
/-- A1: 250 + 10 = 4, and E is unchanged. -/
theorem test_add : (nextOf (step { at_ 6 [0xA0#8, 0#8, 1#8] #v[250#8, 10#8, 0#8, 0#8, 0#8, 0#8, 0#8] with E := true })).map
    (fun t => (t.x[0], t.x[1], t.E, t.pc)) = some (4#8, 10#8, true, 9) := by decide
/-- A5: SP as the destination wraps and does not abort. -/
theorem test_add_sp : (nextOf (step (at_ 6 [0xA0#8, 7#8, 1#8] #v[0#8, 0x10#8, 0#8, 0#8, 0#8, 0#8, 0#8]))).map
    (fun t => t.x[7]) = some 0x04#8 := by decide
/-- A9: 255 * 255 keeps the low byte. -/
theorem test_mul : (nextOf (step (at_ 6 [0xA2#8, 0#8, 1#8] #v[255#8, 255#8, 0#8, 0#8, 0#8, 0#8, 0#8]))).map
    (fun t => (t.x[0], t.x[1], t.pc)) = some (1#8, 255#8, 9) := by decide
/-- A8: source and destination the same register. -/
theorem test_mul_same : (nextOf (step (at_ 6 [0xA2#8, 2#8, 2#8] #v[0#8, 0#8, 16#8, 0#8, 0#8, 0#8, 0#8]))).map
    (fun t => t.x[2]) = some 0#8 := by decide
/-- A13: equal registers set E and stay. -/
theorem test_cmp_equal : (nextOf (step (at_ 6 [0xA7#8, 0#8, 2#8] #v[3#8, 0#8, 3#8, 0#8, 0#8, 0#8, 0#8]))).map
    (fun t => (t.E, t.x[0], t.pc)) = some (true, 3#8, 9) := by decide
/-- A14: unequal registers clear E. -/
theorem test_cmp_unequal : (nextOf (step { at_ 6 [0xA7#8, 0#8, 1#8] #v[0#8, 255#8, 0#8, 0#8, 0#8, 0#8, 0#8] with E := true })).map
    (·.E) = some false := by decide
/-- S2: PUSH R7 stores the decremented SP. -/
theorem test_push_r7 : (nextOf (step (at_ 6 [0x45#8, 7#8]))).map (fun t => (t.x[7], t.mem.read 0xF3, t.pc)) =
    some (0xF3#8, 0xF3#8, 8) := by decide
/-- S3: PUSH at SP 0. -/
theorem test_push_sp0 : abortOf (step (at_ 6 [0x45#8, 0#8] Config.gprInit 0#8)) = some (.spOutOfRange (-1)) := by decide
/-- S6: POP R7 ends with the popped byte plus one. -/
theorem test_pop_r7 : (nextOf (exec (.pop 7#8) (at_ 0xF3 [0x10#8] Config.gprInit 0xF3#8))).map (fun t => (t.x[7], t.mem.read 0xF3)) =
    some (0x11#8, 0x10#8) := by decide
/-- S8: POP R7 of the byte 0xFF. -/
theorem test_pop_r7_ff : abortOf (exec (.pop 7#8) (at_ 0xF3 [0xFF#8] Config.gprInit 0xF3#8)) = some (.spOutOfRange 256) := by decide
/-- T2: CALL R7 goes to the new SP. -/
theorem test_call_r7 : (nextOf (step (at_ 8 [0x50#8, 7#8]))).map (fun t => (t.mem.read 0xF3, t.x[7], t.pc)) =
    some (0x0A#8, 0xF3#8, 0xF3) := by decide
/-- T4, T7: the return address 256, and the SP check before it. -/
theorem test_call_at_254 : abortOf (step (at_ 254 [0x50#8, 1#8])) = some (.returnAddrOutOfRange 256) ∧
    abortOf (step (at_ 254 [0x50#8, 1#8] Config.gprInit 0#8)) = some (.spOutOfRange (-1)) := by decide
/-- T8: RET pops the pc. -/
theorem test_ret : (nextOf (exec .ret (at_ 0xF3 [0x0A#8] Config.gprInit 0xF3#8))).map (fun t => (t.pc, t.x[7])) =
    some (0x0A, 0xF4#8) := by decide
/-- T9: RET at SP 255. -/
theorem test_ret_sp255 : abortOf (step (at_ 0 [0x11#8] Config.gprInit 0xFF#8)) = some (.spOutOfRange 256) := by decide
/-- T11: JMP R7 goes to SP. -/
theorem test_jmp : (nextOf (step (at_ 23 [0x54#8, 7#8]))).map (·.pc) = some 0xF4 := by decide
/-- T12, T13: JEQ taken and not. -/
theorem test_jeq : (nextOf (step { at_ 21 [0x55#8, 3#8] #v[0#8, 0#8, 0#8, 25#8, 0#8, 0#8, 0#8] with E := true })).map (·.pc) = some 25 ∧
    (nextOf (step (at_ 21 [0x55#8, 3#8] #v[0#8, 0#8, 0#8, 25#8, 0#8, 0#8, 0#8]))).map (·.pc) = some 23 := by decide
/-- T15: the operand is checked although the branch is not taken. -/
theorem test_jeq_r8 : abortOf (step (at_ 21 [0x55#8, 8#8])) = some (.regIndexOutOfRange 8#8) := by decide
/-- T14: JNE taken and not. -/
theorem test_jne : (nextOf (step (at_ 21 [0x56#8, 3#8] #v[0#8, 0#8, 0#8, 0x40#8, 0#8, 0#8, 0#8]))).map (·.pc) = some 0x40 ∧
    (nextOf (step { at_ 21 [0x56#8, 3#8] #v[0#8, 0#8, 0#8, 0x40#8, 0#8, 0#8, 0#8] with E := true })).map (·.pc) = some 23 := by decide
/-- S11, R48, R68: a PUSH over its own operand uses the operand it had fetched. -/
theorem test_push_over_itself :
    (nextOf (step (at_ 0x10 [0x45#8, 0#8] #v[7#8, 0#8, 0#8, 0#8, 0#8, 0#8, 0#8] 0x12#8))).map
      (fun t => (t.x[7], t.mem.read 0x11, t.pc)) = some (0x11#8, 7#8, 0x12) := by decide
/-- The canonical form: writing 0 removes the entry, and entries stay in order. -/
theorem test_memory_canonical : Memory.write (Memory.write (Memory.write [] 5 1#8) 3 2#8) 5 0#8 = [(3, 2#8)] := by decide
/-- D18: of the next three bytes one is past the end at `pc = 253`, and none is missing at 252; the view does not fault. -/
theorem test_trace_near_the_end : (traceView (at_ 253 [1#8, 2#8, 3#8])).2.1 = [some 2#8, some 3#8, none] ∧
    (traceView (at_ 252 [1#8, 2#8, 3#8, 4#8])).2.1 = [some 2#8, some 3#8, some 4#8] := by decide
/-- R114, R116: the loader writes before the run and not after it; the HLT loaded at 0 is run, once. -/
theorem test_session : presented (runProgram defaultOpc Config.gprInit [0x01#8] 1) = some (1, []) ∧
    (presented ((Session.construct Config.gprInit).requests defaultOpc [.load 0 0x01#8, .run 1, .load 0 0#8])) = none := by decide
/-- R111: after an abort the machine presents the reason; the output emitted before stays. -/
theorem test_status_after_abort : statusAfter (step { at_ 256 [] with out := [7#8] }) = some (.aborted (.memAddrOutOfRange 256)) ∧
    outputAfter (step { at_ 256 [] with out := [7#8] }) = some [7#8] := by decide

/-! ### Witnesses: for every statement with hypotheses, states and operands that meet them, at the boundaries of its clauses -/

/-- The hypothesis `opc.Injective` of every statement that has it. -/
theorem witness_opc_injective : defaultOpc.Injective := defaultOpc_injective

/-- A byte that is no opcode: DecoderRejectsByName, UnknownOpcodeHaltsAndChangesNothingElse, TheFirstConditionIsTheOneReported. -/
theorem witness_unknown_opcode (m : Mnemonic) : defaultOpc m ≠ 0xA1#8 ∧ defaultOpc m ≠ 0xFF#8 := by cases m <;> decide

theorem witness_DecodedBytesAreTheEncoding :
    decodeWith defaultOpc [0x82#8, 3#8, 255#8, 9#8] = .ok (.ldi 3#8 255#8, [9#8]) := by rfl

theorem witness_DecoderRejectsByName : ([] : List Byte).length < Mnemonic.PRN.operandCount ∧
    [7#8].length < Mnemonic.LDI.operandCount := by decide

/-- Clauses 1 and 3; clause 2 with the same state. -/
theorem witness_StepRunsTheDecodedInstruction :
    (at_ 253 [0x82#8, 0#8, 0x2A#8]).status = .running ∧
    decodeWith defaultOpc (at_ 253 [0x82#8, 0#8, 0x2A#8]).bytesFromPc = .ok (.ldi 0#8 0x2A#8, []) ∧
    (at_ 253 [0x82#8, 0#8, 0x2A#8]).BytesAt (encodeWith defaultOpc (.ldi 0#8 0x2A#8)) := ⟨rfl, rfl, by decide⟩

theorem witness_FetchPastTheEndAborts :
    ((at_ 256 []).status = .running ∧ 256 ≤ (at_ 256 []).pc) ∧
    ((at_ 255 [0x47#8]).BytesAt [defaultOpc .PRN] ∧ 256 < (at_ 255 [0x47#8]).pc + Mnemonic.PRN.length) ∧
    ((at_ 254 [0xA0#8]).BytesAt [defaultOpc .ADD] ∧ 256 < (at_ 254 [0xA0#8]).pc + Mnemonic.ADD.length) := by decide

theorem witness_UnknownOpcodeHaltsAndChangesNothingElse :
    (at_ 255 [0xFF#8]).status = .running ∧ (at_ 255 [0xFF#8]).BytesAt [0xFF#8] := by decide

theorem witness_HaltingAndNoStepAfterAStop :
    (∃ t, exec .hlt State.reset = .next t) ∧ (Instr.nop ≠ .hlt ∧ ∃ t, exec .nop State.reset = .next t) ∧
    ({ State.reset with status := .halted } : State).status ≠ .running := ⟨⟨_, rfl⟩, ⟨by decide, _, rfl⟩, by decide⟩

/-- The fetch clauses of the one-byte instructions' statements, at the last cell and past it. -/
theorem witness_fetch_of_one_byte : ∀ m ∈ [Mnemonic.NOP, .HLT, .RET],
    ((at_ 255 [defaultOpc m]).status = .running ∧ (at_ 255 [defaultOpc m]).BytesAt [defaultOpc m]) ∧
    256 ≤ (at_ 256 []).pc := by decide

/-- The fetch clauses of the two-byte instructions' statements, at `pc = 254` and `255`. -/
theorem witness_fetch_of_two_bytes : ∀ m ∈ [Mnemonic.PRN, .PUSH, .POP, .CALL, .JMP, .JEQ, .JNE], ∀ p ∈ [254, 255],
    (at_ p [defaultOpc m]).status = .running ∧ (at_ p [defaultOpc m]).BytesAt [defaultOpc m] ∧ (at_ p [defaultOpc m]).pc = p := by
  decide

/-- The fetch clauses of the three-byte instructions' statements, at `pc = 253`, `254` and `255`. -/
theorem witness_fetch_of_three_bytes : ∀ m ∈ [Mnemonic.LDI, .ADD, .MUL, .CMP], ∀ p ∈ [253, 254, 255],
    (at_ p [defaultOpc m]).status = .running ∧ (at_ p [defaultOpc m]).BytesAt [defaultOpc m] ∧ (at_ p [defaultOpc m]).pc = p := by
  decide

/-- The register clauses of LDI, PRN, PUSH, POP, CALL, JMP, JEQ, JNE, and of each operand of ADD, MUL, CMP: 7 and 8. -/
theorem witness_register_operands : (7#8 : Byte).toNat < 8 ∧ 8 ≤ (8#8 : Byte).toNat := by decide

/-- ADD and MUL: a sum and a product that wrap. -/
theorem witness_AddWritesTheWrappedSum_MulWritesTheLowByteOfTheProduct :
    (4#8 : Byte).toNat = ((250#8 : Byte).toNat + (10#8 : Byte).toNat) % 256 ∧
    (1#8 : Byte).toNat = ((255#8 : Byte).toNat * (255#8 : Byte).toNat) % 256 := by decide

/-- PUSH: SP 0, 1 and 255. -/
theorem witness_PushDecrementsThenStores : (at_ 0 [] Config.gprInit 0#8).x[7].toNat = 0 ∧
    (0#8 : Byte).toNat + 1 = (at_ 0 [] Config.gprInit 1#8).x[7].toNat ∧
    (254#8 : Byte).toNat + 1 = (at_ 0 [] Config.gprInit 255#8).x[7].toNat := by decide

/-- POP: SP 255 with another register, R7 with the popped byte 255, and SP 254. -/
theorem witness_PopLoadsThenIncrements :
    ((at_ 0 [] Config.gprInit 255#8).x.set 0 0#8)[7].toNat = 255 ∧
    ((at_ 0xF3 [0xFF#8] Config.gprInit 0xF3#8).x.set 7 ((at_ 0xF3 [0xFF#8]).mem.read 0xF3))[7].toNat = 255 ∧
    (255#8 : Byte).toNat = ((at_ 0 [] Config.gprInit 254#8).x.set 0 0#8)[7].toNat + 1 := by decide

/-- CALL: SP 0; SP 1 with the pc at 254; SP 1 with the pc at 253. -/
theorem witness_CallStoresTheReturnAddressAndRedirects : (at_ 254 [] Config.gprInit 0#8).x[7].toNat = 0 ∧
    (0 < (at_ 254 [] Config.gprInit 1#8).x[7].toNat ∧ 255 < (at_ 254 []).pc + 2) ∧
    ((0#8 : Byte).toNat + 1 = (at_ 253 [] Config.gprInit 1#8).x[7].toNat ∧ (255#8 : Byte).toNat = (at_ 253 []).pc + 2) := by decide

/-- RET: SP 255 and 254. -/
theorem witness_RetPopsThePc : (at_ 0 [] Config.gprInit 255#8).x[7].toNat = 255 ∧
    (255#8 : Byte).toNat = (at_ 0 [] Config.gprInit 254#8).x[7].toNat + 1 := by decide

/-- JEQ and JNE: both values of `E`. -/
theorem witness_JeqGoesToTheRegisterIfEqual_JneGoesToTheRegisterIfNotEqual :
    State.reset.E = false ∧ (State.reset.setE true).E = true := by decide

theorem witness_FirstBadRegisterOperandAborts :
    ((Instr.add 9#8 8#8).regOperands.find? fun r => decide (8 ≤ r.toNat)) = some 9#8 ∧
    ((Instr.add 7#8 8#8).regOperands.find? fun r => decide (8 ≤ r.toNat)) = some 8#8 := by decide

theorem witness_RegistersAndTheirWriters : (Instr.add 7#8 0#8).WellFormed ∧
    (∃ t, exec (.pop 0#8) State.reset = .next t) ∧ (1 : RegIdx).val ∉ writtenRegs (.pop 0#8) := ⟨by decide, ⟨_, rfl⟩, by decide⟩

theorem witness_OnlyCmpWritesAndOnlyBranchesReadTheFlag :
    (∃ t, exec (.cmp 0#8 7#8) State.reset = .next t) ∧ (∃ t, exec (.ldi 0#8 5#8) State.reset = .next t) ∧
    (∀ a b, Instr.ldi 0#8 5#8 ≠ .cmp a b) ∧ (∀ r, Instr.ldi 0#8 5#8 ≠ .jeq r) ∧ (∀ r, Instr.ldi 0#8 5#8 ≠ .jne r) :=
  ⟨⟨_, rfl⟩, ⟨_, rfl⟩, nofun, nofun, nofun⟩

theorem witness_OnlyPrnAppendsToTheOutput :
    ((∃ t, stepWith defaultOpc (at_ 0 [0x00#8]) = .next t) ∧ ∀ r, fetchWith defaultOpc (at_ 0 [0x00#8]) ≠ .ok (.prn r)) ∧
    ((∃ t, stepWith defaultOpc (at_ 0 [0x47#8, 7#8]) = .next t) ∧ fetchWith defaultOpc (at_ 0 [0x47#8, 7#8]) = .ok (.prn 7#8)) ∧
    stepWith defaultOpc { at_ 256 [] with out := [7#8] } = .fault (.fatalAbort (.memAddrOutOfRange 256) [7#8]) :=
  ⟨⟨⟨_, rfl⟩, fun r h => by
      have : fetchWith defaultOpc (at_ 0 [0x00#8]) = .ok .nop := rfl
      rw [this] at h
      cases h⟩, ⟨⟨_, rfl⟩, rfl⟩, rfl⟩

/-- One next state for each row of the table, the conditional ones both ways. -/
theorem witness_PcPolicyOfEveryInstruction :
    ∀ i ∈ [Instr.nop, .hlt, .ldi 7#8 255#8, .prn 7#8, .add 0#8 7#8, .mul 7#8 7#8, .cmp 0#8 0#8, .push 7#8, .pop 0#8, .call 7#8,
      .ret, .jmp 7#8, .jeq 7#8, .jne 7#8], (nextOf (exec i State.reset)).isSome ∧ (nextOf (exec i (State.reset.setE true))).isSome := by
  decide

theorem witness_InstructionsThatStoreNothingLeaveMemory :
    (∀ r, Instr.pop 0#8 ≠ .push r) ∧ (∀ r, Instr.pop 0#8 ≠ .call r) ∧ ∃ t, exec (.pop 0#8) State.reset = .next t :=
  ⟨nofun, nofun, _, rfl⟩

/-- Both clauses, and those of TheNextFetchSeesTheStoredByte, at SP 1. -/
theorem witness_PushAndCallStoreOneByteBelowSp_TheNextFetchSeesTheStoredByte :
    (at_ 6 [] Config.gprInit 1#8).mem.wf = true ∧ spBelow (at_ 6 [] Config.gprInit 1#8) = .ok 0#8 ∧
    (∃ t, exec (.push 7#8) (at_ 6 [] Config.gprInit 1#8) = .next t) ∧
    (∃ t, exec (.call 7#8) (at_ 6 [] Config.gprInit 1#8) = .next t) := ⟨rfl, rfl, ⟨_, rfl⟩, ⟨_, rfl⟩⟩

theorem witness_OnlyStackInstructionsUseSpImplicitly :
    (∀ r, Instr.add 0#8 6#8 ≠ .push r) ∧ (∀ r, Instr.add 0#8 6#8 ≠ .pop r) ∧ (∀ r, Instr.add 0#8 6#8 ≠ .call r) ∧
    Instr.add 0#8 6#8 ≠ .ret ∧ ∀ r ∈ (Instr.add 0#8 6#8).regOperands, r.toNat ≠ 7 :=
  ⟨nofun, nofun, nofun, nofun, by decide⟩

/-- The last cell and the first address that is none. -/
theorem witness_AddressDecoderAdmitsExactly256Cells : State.reset.mem.wf = true ∧ 255 ≤ 255 ∧ 255 < 256 := by decide

theorem witness_ReadReturnsTheMostRecentWrite : ∀ w ∈ [(255, 1#8), (0, 2#8), (255, (3#8 : Byte))], w.1 < 256 := by decide

/-- The same cells written in two orders. -/
theorem witness_CanonicalMemoriesThatReadAlikeAreEqual :
    (Memory.write (Memory.write [] 5 1#8) 3 2#8).wf = true ∧ (Memory.write (Memory.write [] 3 2#8) 5 1#8).wf = true ∧
    ∀ a, Memory.read (Memory.write (Memory.write [] 5 1#8) 3 2#8) a = Memory.read (Memory.write (Memory.write [] 3 2#8) 5 1#8) a :=
  ⟨rfl, rfl, fun _ => rfl⟩

theorem witness_LoaderFillsMemoryFromZero : State.reset.mem.wf = true ∧ (List.replicate 256 (7#8 : Byte)).length ≤ 256 ∧
    256 < (List.replicate 257 (7#8 : Byte)).length :=
  ⟨rfl, by rw [List.length_replicate], by rw [List.length_replicate]; decide⟩

theorem witness_PushThenPopRestoresTheRegisters : (7#8 : Byte).toNat < 8 ∧ 1 ≤ (at_ 0 [] Config.gprInit 1#8).x[7].toNat ∧
    (at_ 0 [] Config.gprInit 1#8).mem.wf = true := by decide

/-- The state after the CALL itself, at its last possible address. -/
theorem witness_RetResumesAfterTheCall : (at_ 253 [0x50#8, 7#8]).mem.wf = true ∧
    ∃ t, exec (.call 7#8) (at_ 253 [0x50#8, 7#8]) = .next t ∧ t.x[7] = t.x[7] ∧ t.mem.read t.x[7].toNat = t.mem.read t.x[7].toNat :=
  ⟨rfl, _, rfl, rfl, rfl⟩

/-- One fault of each kind. -/
theorem witness_HandlersAbortOnlyAsTabled :
    exec (.ldi 8#8 0#8) State.reset = .fault (.fatalAbort (.regIndexOutOfRange 8#8) []) ∧
    exec (.push 0#8) (at_ 0 [] Config.gprInit 0#8) = .fault (.fatalAbort (.spOutOfRange (-1)) []) ∧
    exec .ret (at_ 0 [] Config.gprInit 255#8) = .fault (.fatalAbort (.spOutOfRange 256) []) ∧
    exec (.pop 0#8) (at_ 0 [] Config.gprInit 255#8) = .fault (.fatalAbort (.spOutOfRange 256) []) ∧
    exec (.call 0#8) (at_ 254 []) = .fault (.fatalAbort (.returnAddrOutOfRange 256) []) := ⟨rfl, rfl, rfl, rfl, rfl⟩

theorem witness_EveryStepEndsInANamedWay : State.reset.status = .running := rfl

theorem witness_TheFirstConditionIsTheOneReported :
    ((at_ 255 [0xA1#8]).status = .running ∧ (at_ 255 [0xA1#8]).pc = 255 ∧ (at_ 255 [0xA1#8]).mem.read 255 = 0xA1#8) ∧
    (Mnemonic.ADD.operandCount = 2 ∧ (at_ 254 [0xA0#8, 9#8]).pc = 254 ∧
      (at_ 254 [0xA0#8, 9#8]).BytesAt [defaultOpc .ADD, 9#8] ∧ 8 ≤ (9#8 : Byte).toNat) ∧
    (at_ 254 [] Config.gprInit 0#8).x[7].toNat = 0 := by decide

theorem witness_StatusCodesTellTheStopsApart : (Status.haltedUnknown 1#8 2).code = (Status.haltedUnknown 1#8 2).code ∧
    (Status.haltedUnknown 1#8 2).recorded = (Status.haltedUnknown 1#8 2).recorded := ⟨rfl, rfl⟩

/-- A state that is not construction's meets the invariant and has a step. -/
theorem witness_EveryStepKeepsTheInvariant : (at_ 255 [0x01#8]).Inv defaultOpc ∧
    ∃ t, stepWith defaultOpc (at_ 255 [0x01#8]) = .next t := ⟨⟨rfl, by decide, trivial⟩, _, rfl⟩

theorem witness_LoadingKeepsTheInvariant : State.reset.status = .running ∧ (at_ 255 [0x01#8]).Inv defaultOpc ∧
    ∃ t, loadImage [1#8, 2#8] (at_ 255 [0x01#8]) = .next t := ⟨rfl, ⟨rfl, by decide, trivial⟩, _, rfl⟩

/-- A HLT: one instruction, no transfer, then stopped. -/
theorem witness_StraightLineRunsStopWithin257Steps : StraightLine defaultOpc 257 (at_ 0 [0x01#8]) := by
  have hf : fetchWith defaultOpc (at_ 0 [0x01#8]) = .ok .hlt := rfl
  refine fun _ => ⟨fun i hi => ?_, fun t ht h => ?_⟩
  · rw [hf] at hi
    cases hi
    rfl
  · cases ht
    cases h

theorem witness_AJumpToItselfNeverStops :
    (at_ 15 [0x54#8, 4#8] #v[0#8, 0#8, 0#8, 0#8, 15#8, 0#8, 0#8]).status = .running ∧
    (at_ 15 [0x54#8, 4#8] #v[0#8, 0#8, 0#8, 0#8, 15#8, 0#8, 0#8]).BytesAt [defaultOpc .JMP, 4#8] ∧
    ∃ h : (4#8 : Byte).toNat < 8, (at_ 15 [0x54#8, 4#8] #v[0#8, 0#8, 0#8, 0#8, 15#8, 0#8, 0#8]).x[(4#8 : Byte).toNat].toNat =
      (at_ 15 [0x54#8, 4#8]).pc := by decide

theorem witness_ARunThroughNopsAbortsAtTheEnd : (at_ 255 []).status = .running ∧ (at_ 255 []).pc + 1 = 256 ∧
    ∀ a, (at_ 255 []).pc ≤ a → a < 256 → (at_ 255 []).mem.read a = defaultOpc .NOP := ⟨rfl, rfl, fun _ _ _ => rfl⟩

theorem witness_AStoppedRunStaysAsItStopped :
    ∃ t, runWith defaultOpc 1 (at_ 0 [0x01#8]) = .next t ∧ t.status ≠ .running := ⟨_, rfl, by decide⟩

/-- Accepted lists of both kinds, with a load at the last address. -/
theorem witness_OnlyLoadsThenOneRunAreAdmitted :
    (∃ s, (Session.construct Config.gprInit).requests defaultOpc [.load 255 1#8] = .next (.loading s)) ∧
    ∃ t, (Session.construct Config.gprInit).requests defaultOpc [.load 0 1#8, .run 1] = .next (.started t) := ⟨⟨_, rfl⟩, _, rfl⟩

theorem witness_AProgramRunIsTheLoopFromItsLoadedImage : (List.replicate 256 (7#8 : Byte)).length ≤ 256 ∧
    256 < (List.replicate 257 (7#8 : Byte)).length := by simp only [List.length_replicate]; decide

/-- A run that goes on, one that stops, and one that aborts. -/
theorem witness_TheCallerIsShownTheStopAlone : State.reset.status = .running ∧
    (∃ t, (Session.loading State.reset).run defaultOpc 1 = .next (.started t) ∧ t.status = .running) ∧
    (∃ t, (Session.loading (at_ 0 [0x01#8])).run defaultOpc 1 = .next (.started t) ∧ t.status ≠ .running) ∧
    presented ((Session.loading (at_ 256 [])).run defaultOpc 1) = some (3, [256]) :=
  ⟨rfl, ⟨_, rfl, rfl⟩, ⟨_, rfl, by decide⟩, by decide⟩

end Sys2Proof.Tests
end

section
/-! SUPPORT. Halting and the address decoder: who writes the status, what a stopped state's step answers (R19, R71, R75), and
which accesses the address decoder admits and what a write leaves unchanged (R17, R37). -/

namespace Sys2Proof.Machine

/-- HLT's next state is halted (R75). -/
theorem exec_hlt_status {s t : State} (h : exec .hlt s = .next t) : t.status = .halted := by
  rw [execHlt_next.mp h, State.setStatus_status]

/-- No handler but HLT's writes the status (R19). -/
theorem exec_keeps_status {i : Instr} {s t : State} (hi : i ≠ .hlt) (h : exec i s = .next t) : t.status = s.status := by
  cases i with
  | nop => rw [execNop_next.mp h]; rfl
  | hlt => exact absurd rfl hi
  | ldi r imm => obtain ⟨_, _, rfl⟩ := execLdi_next.mp h; rfl
  | prn r => obtain ⟨_, _, rfl⟩ := execPrn_next.mp h; rfl
  | add a b => obtain ⟨_, _, _, _, rfl⟩ := aluWrite_next.mp h; rfl
  | mul a b => obtain ⟨_, _, _, _, rfl⟩ := aluWrite_next.mp h; rfl
  | cmp a b => obtain ⟨_, _, _, _, rfl⟩ := execCmp_next.mp h; rfl
  | push r => obtain ⟨_, _, _, _, rfl⟩ := execPush_next.mp h; rfl
  | pop r => obtain ⟨_, _, _, _, rfl⟩ := execPop_next.mp h; rfl
  | call r => obtain ⟨_, _, _, _, _, _, rfl⟩ := execCall_next.mp h; rfl
  | ret => obtain ⟨_, _, rfl⟩ := execRet_next.mp h; rfl
  | jmp r => obtain ⟨_, _, rfl⟩ := execJmp_next.mp h; rfl
  | jeq r => obtain ⟨_, _, rfl⟩ := branchIf_next.mp h; split <;> rfl
  | jne r => obtain ⟨_, _, rfl⟩ := branchIf_next.mp h; split <;> rfl

/-- A state that is not Running has no step (R71; the form of "no step" is log 13). -/
theorem stepWith_of_not_running (opc : Opc) {s : State} (hs : s.status ≠ .running) :
    stepWith opc s = .fault (.notRunning s.status) := by
  obtain ⟨_, hr, _⟩ | ⟨_, hr, _⟩ | ⟨_, hr, _⟩ | ⟨_, hstep⟩ := stepWith_cases opc s
  · exact absurd hr hs
  · exact absurd hr hs
  · exact absurd hr hs
  · exact hstep

/-- Settles O8: HLT is the one handler that writes the status, and the last branch of the step is the one a stopped state takes. -/
theorem haltingAndNoStepAfterAStop : Obligations.HaltingAndNoStepAfterAStop :=
  ⟨fun _ _ => rfl, fun _ _ => exec_hlt_status, fun _ _ _ => exec_keeps_status, fun opc _ => stepWith_of_not_running opc⟩

/-- The address decoder admits a write at `0..255`, and it is a write of memory alone (R17, R37). -/
theorem memWrite_of_lt {a : Nat} (ha : a < Config.memSize) (v : Byte) (s : State) :
    memWrite a v s = .ok (s.setMem (s.mem.write a v)) := memWrite_ok.mpr ⟨ha, rfl⟩

/-- The address decoder rejects a write past 255 by its address (R37). -/
theorem memWrite_of_ge {a : Nat} (ha : Config.memSize ≤ a) (v : Byte) (s : State) :
    memWrite a v s = .error (.memAddrOutOfRange a) := if_neg (Nat.not_lt.mpr ha)

/-- `MemRead` of the cell just written gives the byte written. -/
theorem memRead_memWrite_same {a : Nat} {v : Byte} {s t : State} (hwf : s.mem.wf = true) (h : memWrite a v s = .ok t) :
    memRead a t = .ok v := by
  obtain ⟨ha, rfl⟩ := memWrite_ok.mp h
  exact memRead_ok.mpr ⟨ha, (Memory.read_write_same hwf a v).symm⟩

/-- `MemRead` at any other address answers as before the write: the same byte, or the same rejection. -/
theorem memRead_memWrite_other {a b : Nat} {v : Byte} {s t : State} (hb : b ≠ a) (h : memWrite a v s = .ok t) :
    memRead b t = memRead b s := by
  obtain ⟨-, rfl⟩ := memWrite_ok.mp h
  simp only [memRead, State.setMem_mem, Memory.read_write_other s.mem hb v]

/-- Settles O33: each side of the decoder's bound 256 has its rule for reads and for writes; read after write gives the rest. -/
theorem addressDecoderAdmitsExactly256Cells : Obligations.AddressDecoderAdmitsExactly256Cells := by
  intro a v s hwf
  constructor
  · intro ha
    have hlt : a < Config.memSize := Nat.lt_succ_of_le ha
    have hw := memWrite_of_lt hlt v s
    exact ⟨memRead_ok.mpr ⟨hlt, rfl⟩, _, hw, memRead_memWrite_same hwf hw, fun _ hb => memRead_memWrite_other hb hw, rfl⟩
  · intro ha
    exact ⟨memRead_error.mpr ⟨ha, rfl⟩, memWrite_of_ge ha v s⟩

end Sys2Proof.Machine
end

section
/-! SUPPORT. The state: what every step keeps, who writes the registers, the flag and the output, which instructions read the flag
and SP, what memory holds after any writes, and how a run that has stopped goes on. -/

namespace Sys2Proof.Machine

/-! ### What a step answers -/

/-- A step that goes on ran the instruction it fetched, or it halted on an unknown byte and changed the status alone. -/
theorem stepWith_next {opc : Opc} {s t : State} (h : stepWith opc s = .next t) :
    (∃ i, s.status = .running ∧ fetchWith opc s = .ok i ∧ exec i s = .next t) ∨
      ∃ op, s.status = .running ∧ fetchWith opc s = .error (.unknownOpcode op) ∧
        t = s.setStatus (.haltedUnknown op s.pc) := by
  obtain ⟨i, hs, hf, hstep⟩ | ⟨op, hs, hf, hstep⟩ | ⟨e, -, -, hstep⟩ | ⟨-, hstep⟩ := stepWith_cases opc s
  · exact .inl ⟨i, hs, hf, hstep ▸ h⟩
  · cases hstep.symm.trans h
    exact .inr ⟨op, hs, hf, rfl⟩
  · cases hstep.symm.trans h
  · cases hstep.symm.trans h

/-- A step answers a next state, a fatal abort with the earlier output, or that the machine has stopped; it never refuses. -/
theorem stepWith_next_or_fault (opc : Opc) (s : State) :
    (∃ t, stepWith opc s = .next t) ∨ (∃ reason, stepWith opc s = .fault (.fatalAbort reason s.out)) ∨
      stepWith opc s = .fault (.notRunning s.status) := by
  obtain ⟨i, -, -, hstep⟩ | ⟨_, -, -, hstep⟩ | ⟨e, -, -, hstep⟩ | ⟨-, hstep⟩ := stepWith_cases opc s
  · obtain ⟨t, hi⟩ | ⟨e, hi⟩ := exec_next_or_abort i s
    · exact .inl ⟨t, hstep.trans hi⟩
    · exact .inr (.inl ⟨e, hstep.trans hi⟩)
  · exact .inl ⟨_, hstep⟩
  · exact .inr (.inl ⟨e, hstep⟩)
  · exact .inr (.inr hstep)

/-- A fatal abort carries the output emitted before the instruction (R29). -/
theorem stepWith_fatalAbort_out {opc : Opc} {s : State} {reason : AbortReason} {out : List Byte}
    (h : stepWith opc s = .fault (.fatalAbort reason out)) : out = s.out := by
  obtain ⟨_, hstep⟩ | ⟨_, hstep⟩ | hstep := stepWith_next_or_fault opc s
  · cases hstep.symm.trans h
  · cases hstep.symm.trans h
    rfl
  · cases hstep.symm.trans h

/-- No step refuses. -/
theorem stepWith_not_refused (opc : Opc) (s : State) (e : Refusal) : stepWith opc s ≠ .refused e := by
  intro h
  obtain ⟨_, hstep⟩ | ⟨_, hstep⟩ | hstep := stepWith_next_or_fault opc s
  all_goals cases hstep.symm.trans h

/-! ### The invariant -/

/-- Of a Running state the invariant asks canonical memory and the bound on the pc, and no more. -/
theorem inv_of_running {opc : Opc} {s : State} (hs : s.status = .running) :
    s.Inv opc ↔ s.mem.wf = true ∧ s.pc ≤ Config.memSize := by
  simp [State.Inv, hs]

/-- A conditional branch advances past itself or goes to an address that a byte names (R90, R91). -/
theorem branchIf_pc {taken : Bool} {r : Byte} {s t : State} (h : branchIf taken r s = .next t) :
    t.pc = s.pc + 2 ∨ t.pc < Config.memSize := by
  obtain ⟨_, _, rfl⟩ := branchIf_next.mp h
  cases taken with
  | true => exact .inr (BitVec.isLt _)
  | false => exact .inl rfl

/-- A handler leaves the pc just after its instruction, or at an address that a byte names (R70, R86). -/
theorem exec_pc {i : Instr} {s t : State} (h : exec i s = .next t) :
    t.pc = s.pc + i.mnemonic.length ∨ t.pc < Config.memSize := by
  cases i with
  | nop => rw [execNop_next.mp h]; exact .inl rfl
  | hlt => rw [execHlt_next.mp h]; exact .inl rfl
  | ldi r imm => obtain ⟨_, _, rfl⟩ := execLdi_next.mp h; exact .inl rfl
  | prn r => obtain ⟨_, _, rfl⟩ := execPrn_next.mp h; exact .inl rfl
  | add a b => obtain ⟨_, _, _, _, rfl⟩ := aluWrite_next.mp h; exact .inl rfl
  | mul a b => obtain ⟨_, _, _, _, rfl⟩ := aluWrite_next.mp h; exact .inl rfl
  | cmp a b => obtain ⟨_, _, _, _, rfl⟩ := execCmp_next.mp h; exact .inl rfl
  | push r => obtain ⟨_, _, _, _, rfl⟩ := execPush_next.mp h; exact .inl rfl
  | pop r => obtain ⟨_, _, _, _, rfl⟩ := execPop_next.mp h; exact .inl rfl
  | call r => obtain ⟨_, _, _, _, _, _, rfl⟩ := execCall_next.mp h; exact .inr (BitVec.isLt _)
  | ret => obtain ⟨_, _, rfl⟩ := execRet_next.mp h; exact .inr (BitVec.isLt _)
  | jmp r => obtain ⟨_, _, rfl⟩ := execJmp_next.mp h; exact .inr (BitVec.isLt _)
  | jeq r => exact branchIf_pc h
  | jne r => exact branchIf_pc h

/-- A fetched instruction leaves the pc at most 256: its last byte is in memory (R65; log 20). -/
theorem exec_pc_le {opc : Opc} {i : Instr} {s t : State} (hf : fetchWith opc s = .ok i) (h : exec i s = .next t) :
    t.pc ≤ Config.memSize := by
  obtain hpc | hpc := exec_pc h
  · exact hpc ▸ (fetchWith_ok hf).1
  · exact Nat.le_of_lt hpc

/-- The handler of the fetched instruction keeps the invariant; HLT leaves the pc just after the byte it was fetched from. -/
theorem exec_keeps_inv {opc : Opc} {i : Instr} {s t : State} (hs : s.status = .running) (hwf : s.mem.wf = true)
    (hf : fetchWith opc s = .ok i) (h : exec i s = .next t) : t.Inv opc := by
  have hpc := exec_pc_le hf h
  by_cases hi : i = .hlt
  · subst hi
    have ht : t = (s.advance 1).setStatus .halted := execHlt_next.mp h
    subst ht
    exact ⟨hwf, hpc, s.pc, rfl, (fetchWith_ok hf).2⟩
  · exact (inv_of_running ((exec_keeps_status hi h).trans hs)).mpr ⟨exec_keeps_mem_wf hwf h, hpc⟩

/-- The halt on a fetched byte that is no opcode keeps the invariant (R94). -/
theorem haltUnknown_keeps_inv {opc : Opc} {op : Byte} {s : State} (hwf : s.mem.wf = true)
    (hf : fetchWith opc s = .error (.unknownOpcode op)) : (s.setStatus (.haltedUnknown op s.pc)).Inv opc := by
  obtain ⟨hpc, hop, hno⟩ := fetchWith_unknownOpcode.mp hf
  exact ⟨hwf, Nat.le_of_lt hpc, rfl, hpc, hop, hno⟩

/-- Settles O46: a step that goes on ran the fetched instruction or halted on an unknown byte, and each keeps the invariant. -/
theorem everyStepKeepsTheInvariant : Obligations.EveryStepKeepsTheInvariant := by
  intro opc s t hinv h
  obtain ⟨hwf, -⟩ := hinv
  obtain ⟨i, hs, hf, hi⟩ | ⟨op, -, hf, rfl⟩ := stepWith_next h
  · exact exec_keeps_inv hs hwf hf hi
  · exact haltUnknown_keeps_inv hwf hf

/-- Settles O45: memory is empty, the pc 0 and the status Running, for every draw. -/
theorem constructionMeetsTheInvariant : Obligations.ConstructionMeetsTheInvariant := by
  have key (opc : Opc) (g : Vector Byte 7) : (State.construct g).Inv opc :=
    (inv_of_running rfl).mpr ⟨construct_mem_wf g, Nat.zero_le _⟩
  exact ⟨key, fun opc => key opc Config.gprInit⟩

/-- Settles O44: the register file is the draw followed by `SP_INIT`; every other element is as written in `State.construct`. -/
theorem constructionSetsEveryElement : Obligations.ConstructionSetsEveryElement :=
  ⟨fun g => ⟨Memory.read_nil, construct_sp g, construct_reg_gpr g, rfl, rfl, rfl, rfl⟩, Config.gprInit, rfl⟩

/-! ### Registers and their writers -/

/-- The register an operand byte names, as an element of the register file. -/
theorem reg_of_operand {r : Byte} {i : RegIdx} (hi : r.toNat = i.val) (s : State) :
    ∃ h : r.toNat < 8, s.x[r.toNat] = s.reg i :=
  ⟨hi ▸ i.isLt, by simp only [State.reg, hi]; rfl⟩

/-- LDI to a register named by its own index writes it and no other (R24, R76). -/
theorem exec_ldi_of_index (i : RegIdx) (v : Byte) (s : State) :
    exec (.ldi (BitVec.ofNat 8 i.val) v) s = .next ((s.setReg i v).advance 3) := by
  refine execLdi_next.mpr ⟨i, ?_, rfl⟩
  rw [BitVec.toNat_ofNat]
  exact Nat.mod_eq_of_lt (by omega)

/-- An instruction that raised a fatal abort raised it with its own reason and the earlier output. -/
theorem complete_fatalAbort {s : State} {r : Except AbortReason State} {e : AbortReason} {out : List Byte}
    (h : complete s r = .fault (.fatalAbort e out)) : r = .error e := by
  obtain ⟨_, hr, hf⟩ := complete_fault.mp h
  cases hf
  exact hr

/-- If what follows a register operand never reports a register index, a reported one is the operand's. -/
theorem regIndex_of_regOperand {r b : Byte} {f : RegIdx → Except AbortReason State} {s : State} {out : List Byte}
    (h : complete s (regOperand r >>= f) = .fault (.fatalAbort (.regIndexOutOfRange b) out))
    (hf : ∀ i, f i ≠ .error (.regIndexOutOfRange b)) : b ∈ [r] ∧ 8 ≤ b.toNat := by
  obtain h | ⟨i, -, h⟩ := bind_error.mp (complete_fatalAbort h)
  · obtain ⟨hr, he⟩ := regOperand_error.mp h
    cases he
    exact ⟨by simp, hr⟩
  · exact absurd h (hf i)

/-- If what follows the two operands of FRR never reports a register index, a reported one is that of an operand. -/
theorem regIndex_of_regOperands {a a' b : Byte} {f : RegIdx × RegIdx → Except AbortReason State} {s : State} {out : List Byte}
    (h : complete s (regOperands a a' >>= f) = .fault (.fatalAbort (.regIndexOutOfRange b) out))
    (hf : ∀ p, f p ≠ .error (.regIndexOutOfRange b)) : b ∈ [a, a'] ∧ 8 ≤ b.toNat := by
  obtain h | ⟨p, -, h⟩ := bind_error.mp (complete_fatalAbort h)
  · obtain ⟨hr, he⟩ | ⟨-, hr, he⟩ := regOperands_error.mp h
    · cases he; exact ⟨by simp, hr⟩
    · cases he; exact ⟨by simp, hr⟩
  · exact absurd h (hf p)

/-- The reported register index is a register operand of the instruction, and it is out of range (R66). -/
theorem exec_regIndexOutOfRange {i : Instr} {s : State} {b : Byte} {out : List Byte}
    (h : exec i s = .fault (.fatalAbort (.regIndexOutOfRange b) out)) : b ∈ i.regOperands ∧ 8 ≤ b.toNat := by
  cases i with
  | nop => cases (execNop_next.mpr rfl).symm.trans h
  | hlt => cases (execHlt_next.mpr rfl).symm.trans h
  | ldi r imm => exact regIndex_of_regOperand h nofun
  | prn r => exact regIndex_of_regOperand h nofun
  | add a a' => exact regIndex_of_regOperands h nofun
  | mul a a' => exact regIndex_of_regOperands h nofun
  | cmp a a' => exact regIndex_of_regOperands h nofun
  | push r => exact regIndex_of_regOperand h fun i => by simp [bind_error, spBelow_error, memWrite_byte]
  | pop r => exact regIndex_of_regOperand h fun i => by simp [bind_error, spAbove_error, memRead_byte]
  | call r =>
    exact regIndex_of_regOperand h fun i => by simp [bind_error, spBelow_error, returnAddress_error, memWrite_byte]
  | ret =>
    have h := complete_fatalAbort h
    simp [bind_error, spAbove_error, memRead_byte] at h
  | jmp r => exact regIndex_of_regOperand h nofun
  | jeq r => exact regIndex_of_regOperand h nofun
  | jne r => exact regIndex_of_regOperand h nofun

/-- No well-formed instruction reports a register index (R54, R66). -/
theorem exec_wellFormed_no_regIndexOutOfRange {i : Instr} (hi : i.WellFormed) (s : State) (b : Byte) (out : List Byte) :
    exec i s ≠ .fault (.fatalAbort (.regIndexOutOfRange b) out) := by
  intro h
  obtain ⟨hb, hge⟩ := exec_regIndexOutOfRange h
  have hlt : b.toNat < 8 := of_decide_eq_true (List.all_eq_true.mp hi b hb)
  omega

/-- ADD and MUL leave every register but their first operand. -/
theorem aluWrite_keeps_reg {f : Byte → Byte → Byte} {a b : Byte} {s t : State} {j : RegIdx} (h : aluWrite f a b s = .next t)
    (hj : j.val ≠ a.toNat) : t.reg j = s.reg j := by
  obtain ⟨k, _, hk, _, rfl⟩ := aluWrite_next.mp h
  exact s.reg_setReg_other (fun e => hj (by rw [e, hk])) _

/-- The frame of the register file: an instruction leaves every register it is not said to write (R24). -/
theorem exec_keeps_reg {i : Instr} {s t : State} {j : RegIdx} (h : exec i s = .next t) (hj : j.val ∉ writtenRegs i) :
    t.reg j = s.reg j := by
  have named {r : Byte} {k : RegIdx} (hk : r.toNat = k.val) (hne : j.val ≠ r.toNat) : j ≠ k :=
    fun e => hne (by rw [e, hk])
  have sp (hne : j.val ≠ 7) : j ≠ Config.spIndex := fun e => hne (by rw [e]; rfl)
  cases i with
  | nop => rw [execNop_next.mp h]; rfl
  | hlt => rw [execHlt_next.mp h]; rfl
  | ldi r imm =>
    obtain ⟨k, hk, rfl⟩ := execLdi_next.mp h
    exact s.reg_setReg_other (named hk (List.ne_of_not_mem_cons hj)) _
  | prn r => obtain ⟨_, _, rfl⟩ := execPrn_next.mp h; rfl
  | add a b => exact aluWrite_keeps_reg h (List.ne_of_not_mem_cons hj)
  | mul a b => exact aluWrite_keeps_reg h (List.ne_of_not_mem_cons hj)
  | cmp a b => obtain ⟨_, _, _, _, rfl⟩ := execCmp_next.mp h; rfl
  | push r =>
    obtain ⟨_, _, _, _, rfl⟩ := execPush_next.mp h
    exact s.reg_setSp_other (sp (List.ne_of_not_mem_cons hj)) _
  | pop r =>
    obtain ⟨k, _, hk, _, rfl⟩ := execPop_next.mp h
    have h7 := List.ne_of_not_mem_cons (List.not_mem_of_not_mem_cons hj)
    exact (State.reg_setSp_other _ (sp h7) _).trans (s.reg_setReg_other (named hk (List.ne_of_not_mem_cons hj)) _)
  | call r =>
    obtain ⟨_, _, _, _, _, _, rfl⟩ := execCall_next.mp h
    exact s.reg_setSp_other (sp (List.ne_of_not_mem_cons hj)) _
  | ret =>
    obtain ⟨_, _, rfl⟩ := execRet_next.mp h
    exact s.reg_setSp_other (sp (List.ne_of_not_mem_cons hj)) _
  | jmp r => obtain ⟨_, _, rfl⟩ := execJmp_next.mp h; rfl
  | jeq r => obtain ⟨_, _, rfl⟩ := branchIf_next.mp h; split <;> rfl
  | jne r => obtain ⟨_, _, rfl⟩ := branchIf_next.mp h; split <;> rfl

/-- Settles O26: LDI writes any register alone, a reported index is an operand out of range, and the rest is the register frame. -/
theorem registersAndTheirWriters : Obligations.RegistersAndTheirWriters :=
  ⟨fun i v s => ⟨_, exec_ldi_of_index i v s, s.reg_setReg_same i v, fun _ hj => s.reg_setReg_other hj v⟩,
    fun _ s b out hi => exec_wellFormed_no_regIndexOutOfRange hi s b out, fun _ _ _ _ => exec_keeps_reg⟩

/-! ### Changing an element before an instruction, or after it

An instruction does not depend on an element, and leaves it, if its body commutes with the change `g` of that element. The rules
below carry this through the sequencing of a body and through its completion. -/

/-- An instruction whose body commutes with `g` has outcomes that do, if `g` leaves the output, which an abort carries. -/
theorem complete_comm {g : State → State} {s : State} {r r' : Except AbortReason State} (hout : (g s).out = s.out)
    (h : r' = r.map g) : complete (g s) r' = mapNext g (complete s r) := by
  subst h
  cases r with
  | ok t => rfl
  | error e => simp only [Except.map, complete, raiseFatalAbort, hout, mapNext_fault]

/-- A sequence commutes with `g` if its second part does wherever the first goes on. -/
theorem bind_comm {α : Type} {g : State → State} {x : Except AbortReason α} {f f' : α → Except AbortReason State}
    (h : ∀ a, x = .ok a → f' a = (f a).map g) : (x >>= f') = (x >>= f).map g := by
  cases x with
  | ok a => exact h a rfl
  | error e => rfl

/-! ### The flag -/

/-- No instruction but CMP writes the flag, and none but PRN appends to the output (R27, R30). -/
theorem exec_keeps_E_out {i : Instr} {s t : State} (h : exec i s = .next t) :
    ((∀ a b, i ≠ .cmp a b) → t.E = s.E) ∧ ((∀ r, i ≠ .prn r) → t.out = s.out) := by
  cases i with
  | nop => rw [execNop_next.mp h]; exact ⟨fun _ => rfl, fun _ => rfl⟩
  | hlt => rw [execHlt_next.mp h]; exact ⟨fun _ => rfl, fun _ => rfl⟩
  | ldi r imm => obtain ⟨_, _, rfl⟩ := execLdi_next.mp h; exact ⟨fun _ => rfl, fun _ => rfl⟩
  | prn r => obtain ⟨_, _, rfl⟩ := execPrn_next.mp h; exact ⟨fun _ => rfl, fun hi => absurd rfl (hi r)⟩
  | add a b => obtain ⟨_, _, _, _, rfl⟩ := aluWrite_next.mp h; exact ⟨fun _ => rfl, fun _ => rfl⟩
  | mul a b => obtain ⟨_, _, _, _, rfl⟩ := aluWrite_next.mp h; exact ⟨fun _ => rfl, fun _ => rfl⟩
  | cmp a b => obtain ⟨_, _, _, _, rfl⟩ := execCmp_next.mp h; exact ⟨fun hi => absurd rfl (hi a b), fun _ => rfl⟩
  | push r => obtain ⟨_, _, _, _, rfl⟩ := execPush_next.mp h; exact ⟨fun _ => rfl, fun _ => rfl⟩
  | pop r => obtain ⟨_, _, _, _, rfl⟩ := execPop_next.mp h; exact ⟨fun _ => rfl, fun _ => rfl⟩
  | call r => obtain ⟨_, _, _, _, _, _, rfl⟩ := execCall_next.mp h; exact ⟨fun _ => rfl, fun _ => rfl⟩
  | ret => obtain ⟨_, _, rfl⟩ := execRet_next.mp h; exact ⟨fun _ => rfl, fun _ => rfl⟩
  | jmp r => obtain ⟨_, _, rfl⟩ := execJmp_next.mp h; exact ⟨fun _ => rfl, fun _ => rfl⟩
  | jeq r => obtain ⟨_, _, rfl⟩ := branchIf_next.mp h; split <;> exact ⟨fun _ => rfl, fun _ => rfl⟩
  | jne r => obtain ⟨_, _, rfl⟩ := branchIf_next.mp h; split <;> exact ⟨fun _ => rfl, fun _ => rfl⟩

/-- CMP's flag: whether its two registers hold equal bytes (R81). -/
theorem exec_cmp_E {a b : Byte} {s t : State} (h : exec (.cmp a b) s = .next t) :
    ∃ (ha : a.toNat < 8) (hb : b.toNat < 8), t.E = true ↔ s.x[a.toNat] = s.x[b.toNat] := by
  obtain ⟨i, j, hi, hj, rfl⟩ := execCmp_next.mp h
  obtain ⟨ha, hai⟩ := reg_of_operand hi s
  obtain ⟨hb, hbj⟩ := reg_of_operand hj s
  refine ⟨ha, hb, ?_⟩
  rw [hai, hbj]
  exact aluEq_iff _ _

/-- An instruction whose body commutes with a change of the flag has outcomes that do. -/
theorem complete_setE {e : Bool} {s : State} {r r' : Except AbortReason State} (h : r' = r.map fun t => t.setE e) :
    complete (s.setE e) r' = mapNext (fun t => t.setE e) (complete s r) :=
  complete_comm (g := fun t => t.setE e) rfl h

/-- No instruction but JEQ, JNE and CMP depends on the flag, and each of them leaves it (R27). -/
theorem exec_setE {i : Instr} (hjeq : ∀ r, i ≠ .jeq r) (hjne : ∀ r, i ≠ .jne r) (hcmp : ∀ a b, i ≠ .cmp a b) (e : Bool)
    (s : State) : exec i (s.setE e) = mapNext (fun t => t.setE e) (exec i s) := by
  cases i with
  | nop => rfl
  | hlt => rfl
  | ldi r imm => exact complete_setE (bind_comm fun _ _ => rfl)
  | prn r => exact complete_setE (bind_comm fun _ _ => rfl)
  | add a b => exact complete_setE (bind_comm fun _ _ => rfl)
  | mul a b => exact complete_setE (bind_comm fun _ _ => rfl)
  | cmp a b => exact absurd rfl (hcmp a b)
  | push r =>
    refine complete_setE (bind_comm fun _ _ => bind_comm fun _ _ => ?_)
    simp only [memWrite_byte, ok_bind]
    rfl
  | pop r => exact complete_setE (bind_comm fun _ _ => bind_comm fun _ _ => bind_comm fun _ _ => rfl)
  | call r =>
    refine complete_setE (bind_comm fun _ _ => bind_comm fun _ _ => bind_comm fun _ _ => ?_)
    simp only [memWrite_byte, ok_bind]
    rfl
  | ret => exact complete_setE (bind_comm fun _ _ => bind_comm fun _ _ => rfl)
  | jmp r => exact complete_setE (bind_comm fun _ _ => rfl)
  | jeq r => exact absurd rfl (hjeq r)
  | jne r => exact absurd rfl (hjne r)

/-- CMP's outcome does not depend on the flag, which it overwrites (R81). -/
theorem exec_cmp_setE (a b : Byte) (e : Bool) (s : State) : exec (.cmp a b) (s.setE e) = exec (.cmp a b) s := by
  simp only [exec, execCmp]
  cases regOperands a b <;> rfl

/-- Settles O27: construction writes false, CMP alone writes the flag after it, and the bodies that read none commute with its
change. -/
theorem onlyCmpWritesAndOnlyBranchesReadTheFlag : Obligations.OnlyCmpWritesAndOnlyBranchesReadTheFlag :=
  ⟨fun _ => rfl, fun _ _ _ _ => exec_cmp_E, fun _ _ _ hi h => (exec_keeps_E_out h).1 hi,
    fun _ e s hjeq hjne hcmp => exec_setE hjeq hjne hcmp e s, exec_cmp_setE⟩

/-! ### SP -/

/-- An instruction whose body commutes with a change of SP has outcomes that do. -/
theorem complete_setSp {v : Byte} {s : State} {r r' : Except AbortReason State} (h : r' = r.map fun t => t.setSp v) :
    complete (s.setSp v) r' = mapNext (fun t => t.setSp v) (complete s r) :=
  complete_comm (g := fun t => t.setSp v) rfl h

/-- A register operand byte other than 7 names a register other than SP. -/
theorem regOperand_ne_spIndex {r : Byte} {i : RegIdx} (hr : r.toNat ≠ 7) (hi : r.toNat = i.val) : i ≠ Config.spIndex :=
  fun e => hr (by rw [hi, e]; rfl)

/-- Writes to SP and to another register may be made in either order. -/
theorem setSp_setReg_comm {i : RegIdx} (hi : i ≠ Config.spIndex) (u v : Byte) (s : State) :
    (s.setSp v).setReg i u = (s.setReg i u).setSp v := by
  refine State.ext_of_elements rfl (fun j => ?_) rfl rfl rfl rfl
  simp only [State.setSp_eq_setReg, State.reg_setReg]
  by_cases hj : j = i
  · subst hj; simp [hi]
  · simp [hj]

/-- ADD and MUL with operands other than R7 neither read nor write SP. -/
theorem aluWrite_setSp (f : Byte → Byte → Byte) {a b : Byte} (ha : a.toNat ≠ 7) (hb : b.toNat ≠ 7) (v : Byte) (s : State) :
    aluWrite f a b (s.setSp v) = mapNext (fun t => t.setSp v) (aluWrite f a b s) := by
  refine complete_setSp (bind_comm fun p h => ?_)
  obtain ⟨hi, hj⟩ := regOperands_ok.mp h
  have hi := regOperand_ne_spIndex ha hi
  simp only [s.reg_setSp_other hi, s.reg_setSp_other (regOperand_ne_spIndex hb hj), setSp_setReg_comm hi]
  rfl

/-- A conditional branch to a register other than R7 neither reads nor writes SP. -/
theorem branchIf_setSp (taken : Bool) {r : Byte} (hr : r.toNat ≠ 7) (v : Byte) (s : State) :
    branchIf taken r (s.setSp v) = mapNext (fun t => t.setSp v) (branchIf taken r s) := by
  refine complete_setSp (bind_comm fun i h => ?_)
  rw [s.reg_setSp_other (regOperand_ne_spIndex hr (regOperand_ok.mp h))]
  cases taken <;> rfl

/-- Settles O32: with operands other than R7, the body of every other instruction commutes with a change of SP. -/
theorem onlyStackInstructionsUseSpImplicitly : Obligations.OnlyStackInstructionsUseSpImplicitly := by
  intro i v s hpush hpop hcall hret h7
  have read {r : Byte} {k : RegIdx} (hr : r.toNat ≠ 7) (hk : regOperand r = .ok k) : (s.setSp v).reg k = s.reg k :=
    s.reg_setSp_other (regOperand_ne_spIndex hr (regOperand_ok.mp hk)) v
  cases i with
  | nop => rfl
  | hlt => rfl
  | ldi r imm =>
    refine complete_setSp (bind_comm fun k hk => ?_)
    rw [setSp_setReg_comm (regOperand_ne_spIndex (h7 r List.mem_cons_self) (regOperand_ok.mp hk))]
    rfl
  | prn r =>
    refine complete_setSp (bind_comm fun k hk => ?_)
    rw [read (h7 r List.mem_cons_self) hk]
    rfl
  | add a b => exact aluWrite_setSp aluAdd (h7 a List.mem_cons_self) (h7 b (List.mem_cons_of_mem _ List.mem_cons_self)) v s
  | mul a b => exact aluWrite_setSp aluMul (h7 a List.mem_cons_self) (h7 b (List.mem_cons_of_mem _ List.mem_cons_self)) v s
  | cmp a b =>
    refine complete_setSp (bind_comm fun p h => ?_)
    obtain ⟨k, l⟩ := p
    obtain ⟨hk, hl⟩ := regOperands_ok.mp h
    dsimp only
    rw [read (h7 a List.mem_cons_self) (regOperand_ok.mpr hk),
      read (h7 b (List.mem_cons_of_mem _ List.mem_cons_self)) (regOperand_ok.mpr hl)]
    rfl
  | push r => exact absurd rfl (hpush r)
  | pop r => exact absurd rfl (hpop r)
  | call r => exact absurd rfl (hcall r)
  | ret => exact absurd rfl hret
  | jmp r =>
    refine complete_setSp (bind_comm fun k hk => ?_)
    rw [read (h7 r List.mem_cons_self) hk]
    rfl
  | jeq r => exact branchIf_setSp s.E (h7 r List.mem_cons_self) v s
  | jne r => exact branchIf_setSp (!s.E) (h7 r List.mem_cons_self) v s

/-! ### The output -/

/-- PRN appends its register's byte (R77). -/
theorem exec_prn_out {r : Byte} {s t : State} (h : exec (.prn r) s = .next t) :
    ∃ h : r.toNat < 8, t.out = s.out ++ [s.x[r.toNat]] := by
  obtain ⟨i, hi, rfl⟩ := execPrn_next.mp h
  obtain ⟨hr, hreg⟩ := reg_of_operand hi s
  exact ⟨hr, by rw [hreg]; rfl⟩

/-- Settles O28: of the handlers PRN alone appends, the halt on an unknown byte leaves the output, and every abort carries it. -/
theorem onlyPrnAppendsToTheOutput : Obligations.OnlyPrnAppendsToTheOutput := by
  refine ⟨fun _ => rfl, fun opc s t h hprn => ?_, fun opc s t r h hprn => ?_, fun _ _ _ _ => stepWith_fatalAbort_out⟩
  · obtain ⟨i, -, hf, hi⟩ | ⟨op, -, -, rfl⟩ := stepWith_next h
    · exact (exec_keeps_E_out hi).2 fun r e => hprn r (e ▸ hf)
    · rfl
  · obtain ⟨i, -, hf, hi⟩ | ⟨op, -, hf, -⟩ := stepWith_next h
    · cases hf.symm.trans hprn
      exact exec_prn_out hi
    · cases hf.symm.trans hprn

/-! ### Memory after any writes -/

/-- Writes at addresses below 256, in order, keep the canonical form. -/
theorem foldl_write_wf {m : Memory} (hwf : m.wf = true) {ws : List (Nat × Byte)} (h : ∀ w ∈ ws, w.1 < Config.memSize) :
    Memory.wf (ws.foldl (fun m w => Memory.write m w.1 w.2) m) = true :=
  List.foldlRecOn (motive := fun m => Memory.wf m = true) ws _ hwf fun _ hm w hw => Memory.write_wf hm (h w hw) w.2

/-- Settles O34, by induction on the writes from the last one back: a read sees the last write, or else what the earlier left. -/
theorem readReturnsTheMostRecentWrite : Obligations.ReadReturnsTheMostRecentWrite := by
  intro ws a hws
  induction ws using List.reverseRecOn with
  | nil => rfl
  | append_singleton ws w ih =>
    have hfront : ∀ u ∈ ws, u.1 < 256 := fun u hu => hws u (List.mem_append_left _ hu)
    rw [List.foldl_concat, Memory.read_write (foldl_write_wf rfl hfront), ih hfront, List.reverse_concat]
    by_cases hwa : w.1 = a
    · simp [hwa]
    · simp [hwa, Ne.symm hwa]

/-! ### Runs -/

/-- The loop returns a state that is not Running as it stands (R62). -/
theorem runWith_of_not_running (opc : Opc) (n : Nat) {s : State} (hs : s.status ≠ .running) : runWith opc n s = .next s := by
  cases n with
  | zero => rfl
  | succ n =>
    cases h : s.status with
    | running => exact absurd h hs
    | halted => simp only [runWith, h]
    | haltedUnknown op p => simp only [runWith, h]
    | aborted e => simp only [runWith, h]

/-- The loop goes on from the state a step leaves (R62). -/
theorem runWith_succ_of_next {opc : Opc} (n : Nat) {s t : State} (hs : s.status = .running) (h : stepWith opc s = .next t) :
    runWith opc (n + 1) s = runWith opc n t := by
  simp only [runWith, hs, h]

/-- A fault ends the loop (R62). -/
theorem runWith_succ_of_fault {opc : Opc} (n : Nat) {s : State} {f : Fault} (hs : s.status = .running)
    (h : stepWith opc s = .fault f) : runWith opc (n + 1) s = .fault f := by
  simp only [runWith, hs, h]

/-- A longer run goes on from the state a shorter one has reached. -/
theorem runWith_add_of_next {opc : Opc} {k : Nat} {s t : State} (h : runWith opc k s = .next t) (n : Nat) :
    runWith opc (k + n) s = runWith opc n t := by
  induction k generalizing s with
  | zero => cases h; rw [Nat.zero_add]
  | succ k ih =>
    by_cases hs : s.status = .running
    · rw [Nat.succ_add]
      cases hstep : stepWith opc s with
      | next u =>
        rw [runWith_succ_of_next k hs hstep] at h
        rw [runWith_succ_of_next (k + n) hs hstep, ih h]
      | fault f => cases (runWith_succ_of_fault k hs hstep).symm.trans h
      | refused e => exact absurd hstep (stepWith_not_refused opc s e)
    · cases (runWith_of_not_running opc (k + 1) hs).symm.trans h
      rw [runWith_of_not_running opc _ hs, runWith_of_not_running opc _ hs]

/-- A run that a fault has ended is ended by it however long it is followed. -/
theorem runWith_add_of_fault {opc : Opc} {k : Nat} {s : State} {f : Fault} (h : runWith opc k s = .fault f) (n : Nat) :
    runWith opc (k + n) s = .fault f := by
  induction k generalizing s with
  | zero => cases h
  | succ k ih =>
    by_cases hs : s.status = .running
    · rw [Nat.succ_add]
      cases hstep : stepWith opc s with
      | next u =>
        rw [runWith_succ_of_next k hs hstep] at h
        rw [runWith_succ_of_next (k + n) hs hstep, ih h]
      | fault g =>
        rw [runWith_succ_of_fault k hs hstep] at h
        rw [runWith_succ_of_fault (k + n) hs hstep, h]
      | refused e => exact absurd hstep (stepWith_not_refused opc s e)
    · cases (runWith_of_not_running opc (k + 1) hs).symm.trans h

/-- A run that has stopped in a state is in that state however long it is followed (R71). -/
theorem runWith_add_of_stopped {opc : Opc} {k : Nat} {s t : State} (h : runWith opc k s = .next t)
    (ht : t.status ≠ .running) (n : Nat) : runWith opc (k + n) s = .next t :=
  (runWith_add_of_next h n).trans (runWith_of_not_running opc n ht)

/-- Settles O51: the loop goes on from the stopped state, which it returns; an abort after `n` steps would end the run of `k + n`
steps as well. -/
theorem aStoppedRunStaysAsItStopped : Obligations.AStoppedRunStaysAsItStopped := by
  intro opc k s t h ht
  refine ⟨runWith_add_of_stopped h ht, fun n reason out habort => ?_⟩
  have hnext := runWith_add_of_stopped h ht n
  rw [Nat.add_comm] at hnext
  cases (runWith_add_of_fault habort k).symm.trans hnext

end Sys2Proof.Machine
end

section
/-! SUPPORT. Stores to memory: PUSH and CALL store one byte at the address `spBelow` gives, no other instruction stores (R39), and
the next fetch reads what was stored (R48). -/

namespace Sys2Proof.Machine

/-- No handler but those of PUSH and CALL writes memory (R39). -/
theorem exec_keeps_mem {i : Instr} {s t : State} (hpush : ∀ r, i ≠ .push r) (hcall : ∀ r, i ≠ .call r)
    (h : exec i s = .next t) : t.mem = s.mem := by
  cases i with
  | nop => rw [execNop_next.mp h]; rfl
  | hlt => rw [execHlt_next.mp h]; rfl
  | ldi r imm => obtain ⟨_, _, rfl⟩ := execLdi_next.mp h; rfl
  | prn r => obtain ⟨_, _, rfl⟩ := execPrn_next.mp h; rfl
  | add a b => obtain ⟨_, _, _, _, rfl⟩ := aluWrite_next.mp h; rfl
  | mul a b => obtain ⟨_, _, _, _, rfl⟩ := aluWrite_next.mp h; rfl
  | cmp a b => obtain ⟨_, _, _, _, rfl⟩ := execCmp_next.mp h; rfl
  | push r => exact absurd rfl (hpush r)
  | pop r => obtain ⟨_, _, _, _, rfl⟩ := execPop_next.mp h; rfl
  | call r => exact absurd rfl (hcall r)
  | ret => obtain ⟨_, _, rfl⟩ := execRet_next.mp h; rfl
  | jmp r => obtain ⟨_, _, rfl⟩ := execJmp_next.mp h; rfl
  | jeq r => obtain ⟨_, _, rfl⟩ := branchIf_next.mp h; split <;> rfl
  | jne r => obtain ⟨_, _, rfl⟩ := branchIf_next.mp h; split <;> rfl

/-- Settles O30: every handler but those of PUSH and CALL leaves the memory itself. -/
theorem instructionsThatStoreNothingLeaveMemory : Obligations.InstructionsThatStoreNothingLeaveMemory :=
  fun _ _ _ a hpush hcall h => congrArg (Memory.read · a) (exec_keeps_mem hpush hcall h)

/-- PUSH's one store: below SP, the register as the next state holds it, since nothing is written to it after the read (R83). -/
theorem exec_push_mem {r d : Byte} {s t : State} (hd : spBelow s = .ok d) (h : exec (.push r) s = .next t) :
    ∃ hr : r.toNat < 8, t.mem = s.mem.write d.toNat t.x[r.toNat] := by
  obtain ⟨i, d', hi, hd', rfl⟩ := execPush_next.mp h
  cases (spBelow_ok.mpr hd').symm.trans hd
  obtain ⟨hr, hreg⟩ := reg_of_operand hi (s.setSp d)
  exact ⟨hr, congrArg (s.mem.write d.toNat) hreg.symm⟩

/-- CALL's one store: below SP, the return address (R87). -/
theorem exec_call_mem {r d : Byte} {s t : State} (hd : spBelow s = .ok d) (h : exec (.call r) s = .next t) :
    ∃ ret : Byte, ret.toNat = s.pc + 2 ∧ t.mem = s.mem.write d.toNat ret := by
  obtain ⟨_, d', ret, _, hd', hret, rfl⟩ := execCall_next.mp h
  cases (spBelow_ok.mpr hd').symm.trans hd
  exact ⟨ret, hret, rfl⟩

/-- Settles O31: what each of the two stores, read back by the laws of a memory write. -/
theorem pushAndCallStoreOneByteBelowSp : Obligations.PushAndCallStoreOneByteBelowSp := by
  constructor
  · intro r s t d hd h
    obtain ⟨hr, ht⟩ := exec_push_mem hd h
    rw [ht]
    exact ⟨fun a ha => Memory.read_write_other s.mem ha _, fun hwf => ⟨hr, Memory.read_write_same hwf _ _⟩⟩
  · intro r s t d hd h
    obtain ⟨ret, hret, ht⟩ := exec_call_mem hd h
    rw [ht]
    refine ⟨fun a ha => Memory.read_write_other s.mem ha ret, fun hwf => ?_⟩
    rw [Memory.read_write_same hwf, hret]

/-- `MemRead` in a state whose memory is that of `s` after one store: the byte stored at its address, elsewhere as in `s`. -/
theorem memRead_of_mem_write {d v : Byte} {s t : State} (hwf : s.mem.wf = true) (ht : t.mem = s.mem.write d.toNat v) (a : Nat) :
    memRead a t = if a = d.toNat then .ok v else memRead a s := by
  by_cases ha : a = d.toNat
  · rw [if_pos ha, ha, memRead_byte, ht, Memory.read_write_same hwf]
  · simp only [if_neg ha, memRead, ht, Memory.read_write_other s.mem ha v]

/-- A fetch after one store is the decoder reading the byte stored at its address and every other byte as before (R48). -/
theorem fetchWith_of_mem_write (opc : Opc) {d v : Byte} {s t : State} (hwf : s.mem.wf = true)
    (ht : t.mem = s.mem.write d.toNat v) :
    fetchWith opc t = decodeBy opc fun k => if t.pc + k = d.toNat then .ok v else memRead (t.pc + k) s :=
  congrArg (decodeBy opc) (funext fun k => memRead_of_mem_write hwf ht (t.pc + k))

/-- Settles O37: the fetch after the one store that PUSH or CALL makes. -/
theorem theNextFetchSeesTheStoredByte : Obligations.TheNextFetchSeesTheStoredByte := by
  constructor
  · intro opc r s t d hwf hd h
    obtain ⟨hr, ht⟩ := exec_push_mem hd h
    exact ⟨hr, fetchWith_of_mem_write opc hwf ht⟩
  · intro opc r s t d hwf hd h
    obtain ⟨ret, hret, ht⟩ := exec_call_mem hd h
    rw [← hret, BitVec.ofNat_toNat, BitVec.setWidth_eq]
    exact fetchWith_of_mem_write opc hwf ht

end Sys2Proof.Machine
end

section
/-! SUPPORT. The encoding (spec/30_encoding.md): an instruction is decoded exactly from a reader that gives the bytes of its
encoding (R50, R51), whether it reads a list or memory, and what the decoder rejects (R57, log 24). -/

namespace Sys2Proof

/-! ### The bytes of an instruction -/

/-- The encoding is as long as the catalog entry says (R12, R56). -/
theorem encodeWith_length (opc : Opc) (i : Instr) : (encodeWith opc i).length = i.mnemonic.length := by
  rw [encodeWith, List.length_cons, operands_length, Mnemonic.length, Nat.add_comm]

/-- A reader that gives the operand bytes of an instruction gives the decoder what it builds the instruction from. -/
theorem operandByte_of_operands {ε : Type} {read : Nat → Except ε Byte} {i : Instr}
    (h : ∀ (k : Nat) (hk : k < i.operands.length), read (k + 1) = .ok i.operands[k]) (k : Nat) :
    operandByte read i.mnemonic.operandCount (k + 1) = .ok (i.operands.getD k 0#8) := by
  rw [← operands_length]
  obtain hk | hk := Nat.lt_or_ge k i.operands.length
  · rw [operandByte_of_le hk, h k hk, List.getD_eq_getElem _ _ hk]
  · rw [operandByte_of_lt (Nat.lt_succ_of_le hk), List.getD_eq_default _ _ hk]

/-- A reader that gives the bytes of an instruction's encoding is decoded as that instruction. -/
theorem decodeBy_of_encoding {ε : Type} {opc : Opc} {read : Nat → Except ε Byte} {i : Instr} (hinj : opc.Injective)
    (h : ∀ (k : Nat) (hk : k < (encodeWith opc i).length), read k = .ok (encodeWith opc i)[k]) :
    decodeBy opc read = .ok i := by
  have hop := operandByte_of_operands fun k hk => h (k + 1) (Nat.succ_lt_succ hk)
  exact decodeBy_ok.mpr ⟨_, i.mnemonic, _, _, h 0 (Nat.succ_pos _), lookupOpcode_opc hinj _, hop 0, hop 1, (build_of_instr i).symm⟩

/-- A reader that is decoded as an instruction gives the bytes of its encoding. -/
theorem read_of_decodeBy_ok {ε : Type} {opc : Opc} {read : Nat → Except ε Byte} {i : Instr} (h : decodeBy opc read = .ok i)
    (k : Nat) (hk : k < (encodeWith opc i).length) : read k = .ok (encodeWith opc i)[k] := by
  obtain ⟨op, m, b1, b2, h0, hm, h1, h2, rfl⟩ := decodeBy_ok.mp h
  have hn : k < 1 + m.operandCount := by simpa only [encodeWith_length, build_mnemonic, Mnemonic.length] using hk
  have hle := operandCount_le m
  simp only [encodeWith, build_mnemonic, build_operands, lookupOpcode_some hm]
  match k with
  | 0 => exact h0
  | 1 => rw [operandByte_of_le (by omega)] at h1; simpa using h1
  | 2 => rw [operandByte_of_le (by omega)] at h2; simpa using h2
  | k + 3 => omega

/-! ### The decoder on a list of bytes -/

/-- A list of bytes is read at its own offsets and no others. -/
theorem readList_ok {l : List Byte} {k : Nat} {b : Byte} : readList l k = .ok b ↔ l[k]? = some b := by
  unfold readList
  cases l[k]? <;> simp

/-- A read past the end of a list names the offset (log 24). -/
theorem readList_of_ge {l : List Byte} {k : Nat} (h : l.length ≤ k) : readList l k = .error k := by
  simp only [readList, List.getElem?_eq_none h]

/-- A list of bytes gives the bytes of an encoding exactly when it begins with the encoding. -/
theorem encodeWith_prefix_iff {opc : Opc} {i : Instr} {l : List Byte} :
    encodeWith opc i <+: l ↔ ∀ (k : Nat) (hk : k < (encodeWith opc i).length), readList l k = .ok (encodeWith opc i)[k] := by
  simp only [List.prefix_iff_getElem?, readList_ok]

/-- What it takes for a list of bytes to be decoded: the head is, and the rest is what follows its length (R56). -/
theorem decodeWith_ok {opc : Opc} {l rest : List Byte} {i : Instr} :
    decodeWith opc l = .ok (i, rest) ↔ decodeBy opc (readList l) = .ok i ∧ rest = l.drop i.mnemonic.length := by
  unfold decodeWith
  cases decodeBy opc (readList l) with
  | error e => simp
  | ok j =>
    simp only [Except.ok.injEq, Prod.mk.injEq]
    constructor
    · rintro ⟨rfl, rfl⟩; exact ⟨rfl, rfl⟩
    · rintro ⟨rfl, rfl⟩; exact ⟨rfl, rfl⟩

/-- A list of bytes is rejected exactly as its head is. -/
theorem decodeWith_error {opc : Opc} {l : List Byte} {e : DecodeReject Nat} :
    decodeWith opc l = .error e ↔ decodeBy opc (readList l) = .error e := by
  unfold decodeWith
  cases decodeBy opc (readList l) <;> simp

/-- The bytes after an instruction's encoding are those after its length. -/
theorem drop_length_encodeWith_append (opc : Opc) (i : Instr) (rest : List Byte) :
    (encodeWith opc i ++ rest).drop i.mnemonic.length = rest :=
  List.drop_left' (encodeWith_length opc i)

/-- Settles O1: the list begins with the encoding, so the decoder reads the encoding's bytes, and drops just these. -/
theorem decodeOfEncodeIsTheInstruction : Obligations.DecodeOfEncodeIsTheInstruction := by
  intro opc i rest hinj
  have hread := encodeWith_prefix_iff.mp (List.prefix_append (encodeWith opc i) rest)
  exact decodeWith_ok.mpr ⟨decodeBy_of_encoding hinj hread, (drop_length_encodeWith_append opc i rest).symm⟩

/-- Settles O2: the bytes decoded are the encoding's, so the list begins with the encoding. -/
theorem decodedBytesAreTheEncoding : Obligations.DecodedBytesAreTheEncoding := by
  intro opc l rest i h
  obtain ⟨hdec, rfl⟩ := decodeWith_ok.mp h
  obtain ⟨rest, rfl⟩ := encodeWith_prefix_iff.mpr (read_of_decodeBy_ok hdec)
  rw [drop_length_encodeWith_append]

/-! ### What the decoder rejects -/

/-- A first byte that cannot be read is reported. -/
theorem decodeBy_of_unreadable_opcode {ε : Type} {opc : Opc} {read : Nat → Except ε Byte} {e : ε} (h : read 0 = .error e) :
    decodeBy opc read = .error (.unreadable e) := by
  simp only [decodeBy, h]

/-- Of the operand bytes an opcode takes, the first that cannot be read is reported. -/
theorem decodeBy_of_unreadable_operand {ε : Type} {opc : Opc} {read : Nat → Except ε Byte} {m : Mnemonic} {j : Nat} {e : ε}
    (hinj : opc.Injective) (h0 : read 0 = .ok (opc m)) (hj : j < m.operandCount) (he : read (j + 1) = .error e)
    (hok : ∀ k < j, ∃ b, read (k + 1) = .ok b) : decodeBy opc read = .error (.unreadable e) := by
  have hle := operandCount_le m
  simp only [decodeBy, h0, lookupOpcode_opc hinj]
  match j with
  | 0 => simp only [operandByte_of_le (show 1 ≤ m.operandCount from hj), he]
  | 1 =>
    obtain ⟨b, hb⟩ := hok 0 Nat.one_pos
    simp only [operandByte_of_le (Nat.le_of_lt hj), hb, operandByte_of_le (show 2 ≤ m.operandCount from hj), he]
  | j + 2 => omega

/-- Settles O3: the first byte is not there, or it is no opcode, or the first missing operand byte is the one past the end. -/
theorem decoderRejectsByName : Obligations.DecoderRejectsByName := by
  intro opc
  refine ⟨?_, fun op l hop => ?_, fun hinj m l hl => ?_⟩
  · exact decodeWith_error.mpr (decodeBy_of_unreadable_opcode (readList_of_ge (Nat.le_refl 0)))
  · exact decodeWith_error.mpr (decodeBy_unknownOpcode.mpr ⟨rfl, lookupOpcode_none.mpr hop⟩)
  · rw [decodeWith_error, Nat.add_comm 1]
    exact decodeBy_of_unreadable_operand hinj rfl hl (readList_of_ge (Nat.le_refl _))
      fun k hk => ⟨l[k], readList_ok.mpr (List.getElem?_eq_getElem (Nat.succ_lt_succ hk))⟩

end Sys2Proof
end

section
/-! SUPPORT. The stages of a step that stop it or pass it on: the register check (R54, R66), the fetch of an encoding that stands at
the pc and the fetch past the end of memory (R63), and a run through NOPs to that end (R61). -/

namespace Sys2Proof.Machine

/-! ### The register check -/

/-- An instruction that raises in its first part aborts with that reason and the earlier output. -/
theorem complete_bind_of_error {α : Type} {x : Except AbortReason α} {e : AbortReason} (h : x = .error e)
    (f : α → Except AbortReason State) (s : State) : complete s (x >>= f) = .fault (.fatalAbort e s.out) := by
  rw [h]; rfl

/-- The check of one register operand reports it if it is bad. -/
theorem regOperand_of_first_bad {r b : Byte} (h : ([r].find? fun r => decide (8 ≤ r.toNat)) = some b) :
    regOperand r = .error (.regIndexOutOfRange b) := by
  have hb : 8 ≤ b.toNat := by simpa using List.find?_some h
  cases List.mem_singleton.mp (List.mem_of_find?_eq_some h)
  exact regOperand_of_ge hb

/-- The check of two register operands reports the first bad one (R100). -/
theorem regOperands_of_first_bad {a a' b : Byte} (h : ([a, a'].find? fun r => decide (8 ≤ r.toNat)) = some b) :
    regOperands a a' = .error (.regIndexOutOfRange b) := by
  rw [regOperands_error]
  obtain ha | ha := Nat.lt_or_ge a.toNat 8
  · rw [List.find?_cons_of_neg (by simpa using ha)] at h
    obtain ⟨hb, he⟩ := regOperand_error.mp (regOperand_of_first_bad h)
    exact .inr ⟨ha, hb, he⟩
  · rw [List.find?_cons_of_pos (by simpa using ha)] at h
    cases h
    exact .inl ⟨ha, rfl⟩

/-- Settles O23: the body of every instruction with register operands begins with their check. -/
theorem firstBadRegisterOperandAborts : Obligations.FirstBadRegisterOperandAborts := by
  intro i s b h
  cases i with
  | nop => cases h
  | hlt => cases h
  | ldi r imm => exact complete_bind_of_error (regOperand_of_first_bad h) _ s
  | prn r => exact complete_bind_of_error (regOperand_of_first_bad h) _ s
  | add a a' => exact complete_bind_of_error (regOperands_of_first_bad h) _ s
  | mul a a' => exact complete_bind_of_error (regOperands_of_first_bad h) _ s
  | cmp a a' => exact complete_bind_of_error (regOperands_of_first_bad h) _ s
  | push r => exact complete_bind_of_error (regOperand_of_first_bad h) _ s
  | pop r => exact complete_bind_of_error (regOperand_of_first_bad h) _ s
  | call r => exact complete_bind_of_error (regOperand_of_first_bad h) _ s
  | ret => cases h
  | jmp r => exact complete_bind_of_error (regOperand_of_first_bad h) _ s
  | jeq r => exact complete_bind_of_error (regOperand_of_first_bad h) _ s
  | jne r => exact complete_bind_of_error (regOperand_of_first_bad h) _ s

/-! ### The fetch -/

/-- An instruction whose encoding stands at the pc is the one fetched (R63 to R65). -/
theorem fetchWith_of_bytesAt {opc : Opc} {i : Instr} {s : State} (hinj : opc.Injective) (h : s.BytesAt (encodeWith opc i)) :
    fetchWith opc s = .ok i := by
  refine decodeBy_of_encoding hinj fun k hk => ?_
  obtain ⟨hlt, hread⟩ := h ⟨k, hk⟩
  exact memRead_ok.mpr ⟨hlt, hread.symm⟩

/-- A pc past the end of memory aborts the opcode fetch at that address (R63). -/
theorem fetchWith_of_pc_ge (opc : Opc) {s : State} (h : Config.memSize ≤ s.pc) :
    fetchWith opc s = .error (.unreadable (.memAddrOutOfRange s.pc)) :=
  decodeBy_of_unreadable_opcode (memRead_error.mpr ⟨h, rfl⟩)

/-- A Running machine runs the instruction it fetched (R67, R69). -/
theorem stepWith_of_fetchWith_ok {opc : Opc} {i : Instr} {s : State} (hs : s.status = .running) (hf : fetchWith opc s = .ok i) :
    stepWith opc s = exec i s := by
  simp only [stepWith, hs, hf]

/-- A Running machine aborts with the address its fetch could not read (R63, R65). -/
theorem stepWith_of_fetchWith_unreadable {opc : Opc} {e : AbortReason} {s : State} (hs : s.status = .running)
    (hf : fetchWith opc s = .error (.unreadable e)) : stepWith opc s = .fault (.fatalAbort e s.out) := by
  simp only [stepWith, hs, hf, raiseFatalAbort]

/-! ### A run through NOPs -/

/-- A NOP byte at the pc is stepped over, and nothing but the pc changes (R74). -/
theorem stepWith_of_nop_at_pc {opc : Opc} {s : State} (hinj : opc.Injective) (hs : s.status = .running)
    (h : s.BytesAt [opc .NOP]) : stepWith opc s = .next (s.advance 1) :=
  (stepWith_of_fetchWith_ok hs (fetchWith_of_bytesAt (i := .nop) hinj h)).trans (execNop_next.mpr rfl)

/-- Settles O50, by induction on the number of cells left: a NOP leaves one less; with none left the fetch is at 256. -/
theorem aRunThroughNopsAbortsAtTheEnd : Obligations.ARunThroughNopsAbortsAtTheEnd := by
  intro opc s n hinj
  induction n generalizing s with
  | zero =>
    intro hs hpc _
    have hpc : s.pc = 256 := hpc
    have hf := fetchWith_of_pc_ge opc (Nat.le_of_eq hpc.symm)
    rw [hpc] at hf
    exact runWith_succ_of_fault 0 hs (stepWith_of_fetchWith_unreadable hs hf)
  | succ n ih =>
    intro hs hpc hnop
    have hlt : s.pc < 256 := by omega
    have hstep := stepWith_of_nop_at_pc hinj hs (bytesAt_singleton.mpr ⟨hlt, hnop s.pc (Nat.le_refl _) hlt⟩)
    rw [runWith_succ_of_next (n + 1) hs hstep]
    exact ih (s.advance 1) hs (by rw [State.advance_pc]; omega) fun a ha => hnop a (Nat.le_of_succ_le ha)

end Sys2Proof.Machine
end

section
/-! SUPPORT. The execution loop (spec/40_execution_loop.md): a step runs what the bytes at the pc decode to, halts on an unknown byte
or aborts in the fetch, and the pc each instruction leaves (R62 to R72). -/

namespace Sys2Proof

/-! ### Two readers of the same bytes -/

/-- An operand byte that one reader gives, another gives too if it agrees wherever the first can read. -/
theorem operandByte_ok_mono {ε ε' : Type} {read : Nat → Except ε Byte} {read' : Nat → Except ε' Byte}
    (hread : ∀ {k b}, read k = .ok b → read' k = .ok b) {n k : Nat} {b : Byte} (h : operandByte read n k = .ok b) :
    operandByte read' n k = .ok b := by
  obtain hk | hk := Nat.lt_or_ge n k
  · cases (operandByte_of_lt hk).symm.trans h
    exact operandByte_of_lt hk
  · rw [operandByte_of_le hk] at h ⊢
    exact hread h

/-- What one reader is decoded as, another is too if it agrees wherever the first can read. -/
theorem decodeBy_ok_mono {ε ε' : Type} {opc : Opc} {read : Nat → Except ε Byte} {read' : Nat → Except ε' Byte} {i : Instr}
    (hread : ∀ {k b}, read k = .ok b → read' k = .ok b) (h : decodeBy opc read = .ok i) : decodeBy opc read' = .ok i := by
  obtain ⟨op, m, b1, b2, h0, hm, h1, h2, hi⟩ := decodeBy_ok.mp h
  exact decodeBy_ok.mpr ⟨op, m, b1, b2, hread h0, hm, operandByte_ok_mono hread h1, operandByte_ok_mono hread h2, hi⟩

end Sys2Proof

namespace Sys2Proof.Machine

/-! ### The step of a Running machine -/

/-- A byte of the list from the pc on is the byte `MemRead` gives at its address. -/
theorem memRead_of_readList_bytesFromPc {s : State} {k : Nat} {b : Byte} (h : readList s.bytesFromPc k = .ok b) :
    memRead (s.pc + k) s = .ok b := by
  obtain ⟨hk, hb⟩ := List.getElem?_eq_some_iff.mp (readList_ok.mp h)
  simp only [State.bytesFromPc, List.length_map, List.length_range, List.getElem_map, List.getElem_range] at hk hb
  exact memRead_ok.mpr ⟨by omega, hb.symm⟩

/-- The instruction that the readable bytes from the pc decode to is the one fetched (R63 to R65). -/
theorem fetchWith_of_decodeWith_bytesFromPc {opc : Opc} {s : State} {i : Instr} {rest : List Byte}
    (h : decodeWith opc s.bytesFromPc = .ok (i, rest)) : fetchWith opc s = .ok i :=
  decodeBy_ok_mono memRead_of_readList_bytesFromPc (decodeWith_ok.mp h).1

/-- Settles O5: whether its bytes decode to it or its encoding stands there, the instruction at the pc is fetched and run. -/
theorem stepRunsTheDecodedInstruction : Obligations.StepRunsTheDecodedInstruction :=
  ⟨fun _ _ _ _ hs h => stepWith_of_fetchWith_ok hs (fetchWith_of_decodeWith_bytesFromPc h),
    fun _ _ _ hinj hs h => stepWith_of_fetchWith_ok hs (fetchWith_of_bytesAt hinj h),
    fun _ _ _ hs h => stepWith_of_fetchWith_ok hs (fetchWith_of_decodeWith_bytesFromPc h)⟩

/-- A Running machine halts on the byte its fetch found to be no opcode (R64, R94). -/
theorem stepWith_of_fetchWith_unknownOpcode {opc : Opc} {op : Byte} {s : State} (hs : s.status = .running)
    (hf : fetchWith opc s = .error (.unknownOpcode op)) : stepWith opc s = .next (s.setStatus (.haltedUnknown op s.pc)) := by
  simp only [stepWith, hs, hf, haltUnknown]

/-- Settles O7: the fetch finds the unknown byte without reading further, and the halt changes the status alone. -/
theorem unknownOpcodeHaltsAndChangesNothingElse : Obligations.UnknownOpcodeHaltsAndChangesNothingElse := by
  intro opc op s hs hat hop
  obtain ⟨hpc, hbyte⟩ := bytesAt_singleton.mp hat
  exact stepWith_of_fetchWith_unknownOpcode hs (fetchWith_unknownOpcode.mpr ⟨hpc, hbyte, hop⟩)

/-- An instruction whose opcode is in memory and whose last byte is not aborts the operand fetch at 256, the first address that is
not there (R65; D4). -/
theorem fetchWith_of_operands_past_end {opc : Opc} {m : Mnemonic} {s : State} (hinj : opc.Injective) (hat : s.BytesAt [opc m])
    (hlen : Config.memSize < s.pc + m.length) : fetchWith opc s = .error (.unreadable (.memAddrOutOfRange Config.memSize)) := by
  obtain ⟨hpc, hop⟩ := bytesAt_singleton.mp hat
  rw [Mnemonic.length] at hlen
  have hend : s.pc + (Config.memSize - 1 - s.pc + 1) = Config.memSize := by omega
  refine decodeBy_of_unreadable_operand (m := m) (j := Config.memSize - 1 - s.pc) hinj ?_ (by omega) ?_ fun k hk => ?_
  · exact memRead_ok.mpr ⟨hpc, hop.symm⟩
  · rw [hend]
    exact memRead_error.mpr ⟨Nat.le_refl _, rfl⟩
  · exact ⟨_, memRead_ok.mpr ⟨by omega, rfl⟩⟩

/-- Settles O6: the fetch could not read the opcode at the pc, or the operand byte at 256. -/
theorem fetchPastTheEndAborts : Obligations.FetchPastTheEndAborts :=
  ⟨fun opc _ hs hpc => stepWith_of_fetchWith_unreadable hs (fetchWith_of_pc_ge opc hpc),
    fun _ _ _ hinj hs hat hlen => stepWith_of_fetchWith_unreadable hs (fetchWith_of_operands_past_end hinj hat hlen)⟩

/-- The handler of a Running machine leaves it Running, unless it is HLT's, which leaves it Halted (R19, R75). -/
theorem exec_status {i : Instr} {s t : State} (hs : s.status = .running) (h : exec i s = .next t) :
    t.status = .running ∨ t.status = .halted ∧ i = .hlt := by
  by_cases hi : i = .hlt
  · subst hi
    exact .inr ⟨exec_hlt_status h, rfl⟩
  · exact .inl ((exec_keeps_status hi h).trans hs)

/-- Settles O41: the step runs the fetched instruction, halts on an unknown byte, or aborts in the fetch. -/
theorem everyStepEndsInANamedWay : Obligations.EveryStepEndsInANamedWay := by
  intro opc s hs
  obtain ⟨i, -, hf, hstep⟩ | ⟨op, -, hf, hstep⟩ | ⟨e, -, -, hstep⟩ | ⟨hn, -⟩ := stepWith_cases opc s
  · obtain ⟨t, ht⟩ | ⟨e, he⟩ := exec_next_or_abort i s
    · refine .inl ⟨t, hstep.trans ht, ?_⟩
      obtain hrun | ⟨hhalt, rfl⟩ := exec_status hs ht
      · exact .inl hrun
      · exact .inr (.inl ⟨hhalt, hf⟩)
    · exact .inr ⟨e, hstep.trans he⟩
  · obtain ⟨-, -, hop⟩ := fetchWith_unknownOpcode.mp hf
    exact .inl ⟨_, hstep, .inr (.inr ⟨op, hop, rfl⟩)⟩
  · exact .inr ⟨e, hstep⟩
  · exact absurd hs hn

/-! ### The pc -/

/-- A conditional branch goes to its register if it is taken, and else past itself (R70, R90, R91). -/
theorem branchIf_target {taken : Bool} {r : Byte} {s t : State} (h : branchIf taken r s = .next t) :
    ∃ h : r.toNat < 8, t.pc = if taken then s.x[r.toNat].toNat else s.pc + 2 := by
  obtain ⟨i, hi, rfl⟩ := branchIf_next.mp h
  obtain ⟨hr, hreg⟩ := reg_of_operand hi s
  refine ⟨hr, ?_⟩
  rw [hreg]
  cases taken <;> rfl

/-- Settles O29, by the next state of each instruction. -/
theorem pcPolicyOfEveryInstruction : Obligations.PcPolicyOfEveryInstruction := by
  intro i s t h
  cases i with
  | nop => rw [execNop_next.mp h]; rfl
  | hlt => rw [execHlt_next.mp h]; rfl
  | ldi r imm => obtain ⟨_, _, rfl⟩ := execLdi_next.mp h; rfl
  | prn r => obtain ⟨_, _, rfl⟩ := execPrn_next.mp h; rfl
  | add a b => obtain ⟨_, _, _, _, rfl⟩ := aluWrite_next.mp h; rfl
  | mul a b => obtain ⟨_, _, _, _, rfl⟩ := aluWrite_next.mp h; rfl
  | cmp a b => obtain ⟨_, _, _, _, rfl⟩ := execCmp_next.mp h; rfl
  | push r => obtain ⟨_, _, _, _, rfl⟩ := execPush_next.mp h; rfl
  | pop r => obtain ⟨_, _, _, _, rfl⟩ := execPop_next.mp h; rfl
  | call r =>
    obtain ⟨i, d, _, hi, _, _, rfl⟩ := execCall_next.mp h
    obtain ⟨hr, hreg⟩ := reg_of_operand hi (s.setSp d)
    exact ⟨hr, congrArg BitVec.toNat hreg.symm⟩
  | ret => obtain ⟨_, _, rfl⟩ := execRet_next.mp h; rfl
  | jmp r =>
    obtain ⟨i, hi, rfl⟩ := execJmp_next.mp h
    obtain ⟨hr, hreg⟩ := reg_of_operand hi s
    exact ⟨hr, congrArg BitVec.toNat hreg.symm⟩
  | jeq r => exact branchIf_target h
  | jne r =>
    obtain ⟨hr, ht⟩ := branchIf_target h
    refine ⟨hr, ht.trans ?_⟩
    cases s.E <;> rfl

end Sys2Proof.Machine
end

section
/-! SUPPORT. NOP, HLT, LDI and PRN, whole (spec/41_data_and_io.md), and the step of any instruction whose opcode stands at the pc:
its operand bytes are the ones that follow (R65), or the fetch aborts at the one that is past the end of memory. -/

namespace Sys2Proof.Machine

/-! ### An opcode at the pc -/

/-- An instruction that ends inside memory is fetched with the bytes after its opcode as operands (R65). -/
theorem fetchWith_of_opcode_at_pc {opc : Opc} {m : Mnemonic} {s : State} (hinj : opc.Injective) (hat : s.BytesAt [opc m])
    (hlen : s.pc + m.length ≤ Config.memSize) :
    fetchWith opc s = .ok (m.build (s.mem.read (s.pc + 1)) (s.mem.read (s.pc + 2))) := by
  refine fetchWith_of_bytesAt hinj fun ⟨k, hk⟩ => ?_
  have hkm : k < m.length := by rwa [encodeWith_length, build_mnemonic] at hk
  refine ⟨Nat.lt_of_lt_of_le (Nat.add_lt_add_left hkm _) hlen, ?_⟩
  have hle := operandCount_le m
  rw [Mnemonic.length] at hkm
  simp only [encodeWith, build_mnemonic, build_operands]
  match k with
  | 0 => exact (bytesAt_singleton.mp hat).2
  | 1 => simp
  | 2 => simp
  | k + 3 => omega

/-- A Running machine runs the instruction whose opcode is at the pc, if that ends inside memory (R69). -/
theorem stepWith_of_opcode_at_pc {opc : Opc} {m : Mnemonic} {s : State} (hinj : opc.Injective) (hs : s.status = .running)
    (hat : s.BytesAt [opc m]) (hlen : s.pc + m.length ≤ Config.memSize) :
    stepWith opc s = exec (m.build (s.mem.read (s.pc + 1)) (s.mem.read (s.pc + 2))) s :=
  stepWith_of_fetchWith_ok hs (fetchWith_of_opcode_at_pc hinj hat hlen)

/-- A Running machine aborts at the operand byte that would stand at 256 (R65; D4). -/
theorem stepWith_of_operand_past_end {opc : Opc} {m : Mnemonic} {s : State} {k : Nat} (hinj : opc.Injective)
    (hs : s.status = .running) (hat : s.BytesAt [opc m]) (hend : s.pc + k = Config.memSize) (hk : k < m.length) :
    stepWith opc s = .fault (.fatalAbort (.memAddrOutOfRange (s.pc + k)) s.out) := by
  rw [hend]
  exact stepWith_of_fetchWith_unreadable hs (fetchWith_of_operands_past_end hinj hat (by omega))

/-- A Running machine whose pc is past the end of memory aborts in the opcode fetch (R63; D4). -/
theorem stepWith_of_pc_ge (opc : Opc) {s : State} (hs : s.status = .running) (hpc : Config.memSize ≤ s.pc) :
    stepWith opc s = .fault (.fatalAbort (.memAddrOutOfRange s.pc) s.out) :=
  stepWith_of_fetchWith_unreadable hs (fetchWith_of_pc_ge opc hpc)

/-! ### LDI and PRN -/

/-- Settles O11: the register check, then the next state of LDI; of its two operand bytes the one at 256 is the one missing. -/
theorem ldiLoadsTheImmediate : Obligations.LdiLoadsTheImmediate := by
  refine ⟨fun r imm s => ⟨fun hr => ?_, fun hr => ?_⟩, fun opc s hinj hs hat => ⟨fun hpc => ?_, fun hpc => ?_, fun hpc => ?_⟩⟩
  · exact complete_bind_of_error (regOperand_of_ge hr) _ s
  · exact execLdi_next.mpr ⟨⟨r.toNat, hr⟩, rfl, rfl⟩
  · exact stepWith_of_operand_past_end hinj hs hat (show s.pc + 1 = 256 by omega) (by decide)
  · exact stepWith_of_operand_past_end hinj hs hat (show s.pc + 2 = 256 by omega) (by decide)
  · exact stepWith_of_opcode_at_pc hinj hs hat (show s.pc + 3 ≤ 256 by omega)

/-- Settles O12: the register check, then the next state of PRN; its one operand byte is missing if its opcode is the last byte. -/
theorem prnEmitsTheRegister : Obligations.PrnEmitsTheRegister := by
  refine ⟨fun r s => ⟨fun hr => ?_, fun hr => ?_⟩, fun opc s hinj hs hat => ⟨fun hpc => ?_, fun hpc => ?_⟩⟩
  · exact complete_bind_of_error (regOperand_of_ge hr) _ s
  · exact execPrn_next.mpr ⟨⟨r.toNat, hr⟩, rfl, rfl⟩
  · exact stepWith_of_operand_past_end hinj hs hat (show s.pc + 1 = 256 by omega) (by decide)
  · exact stepWith_of_opcode_at_pc hinj hs hat (show s.pc + 2 ≤ 256 by omega)

/-! ### NOP and HLT -/

/-- Settles O9: the next state of NOP, whose opcode byte is the whole instruction. -/
theorem nopAdvancesByOne : Obligations.NopAdvancesByOne :=
  ⟨fun _ => execNop_next.mpr rfl, fun opc _ hinj hs => ⟨stepWith_of_pc_ge opc hs,
    fun hat => stepWith_of_opcode_at_pc hinj hs hat (bytesAt_singleton.mp hat).1⟩⟩

/-- Settles O10: the next state of HLT is Halted, so it has no step; the opcode byte of HLT is the whole instruction. -/
theorem hltAdvancesAndHalts : Obligations.HltAdvancesAndHalts := by
  refine ⟨fun _ => execHlt_next.mpr rfl, fun opc s t h => ?_, fun opc s hinj hs => ⟨stepWith_of_pc_ge opc hs, fun hat => ?_⟩⟩
  · have hhalt : t.status = .halted := exec_hlt_status h
    rw [stepWith_of_not_running opc (by rw [hhalt]; decide), hhalt]
  · exact stepWith_of_opcode_at_pc hinj hs hat (bytesAt_singleton.mp hat).1

end Sys2Proof.Machine
end

section
/-! SUPPORT. The ALU and its three instructions ADD, MUL and CMP, whole (spec/42_alu.md, R78 to R82). -/

namespace Sys2Proof.Machine

/-! ### The ALU -/

/-- Settles O24: the values of the sum and the product; equal bytes are those of equal value. -/
theorem aluComputesModulo256 : Obligations.AluComputesModulo256 :=
  fun u v => ⟨aluAdd_toNat u v, aluMul_toNat u v, (aluEq_iff u v).trans BitVec.toNat_inj.symm⟩

/-- The ALU's sum is the addition of bit vectors, one and the same for signed and unsigned readings. -/
theorem aluAdd_eq_add (u v : Byte) : aluAdd u v = u + v := by
  rw [aluAdd, BitVec.ofNat_add, BitVec.ofNat_toNat, BitVec.ofNat_toNat, BitVec.setWidth_eq, BitVec.setWidth_eq]

/-- The ALU's product is the multiplication of bit vectors. -/
theorem aluMul_eq_mul (u v : Byte) : aluMul u v = u * v := by
  rw [aluMul, BitVec.ofNat_mul, BitVec.ofNat_toNat, BitVec.ofNat_toNat, BitVec.setWidth_eq, BitVec.setWidth_eq]

/-- Settles O25: the sum and the product are those of bit vectors, which a signed reading respects and which commute. -/
theorem aluLawsOfSignedReadingAndCommutation : Obligations.AluLawsOfSignedReadingAndCommutation := by
  intro u v
  simp only [aluAdd_eq_add, aluMul_eq_mul]
  refine ⟨?_, ?_, BitVec.add_comm u v, BitVec.mul_comm u v, BEq.comm⟩
  · rw [BitVec.ofInt_add, BitVec.ofInt_toInt, BitVec.ofInt_toInt]
  · rw [BitVec.ofInt_mul, BitVec.ofInt_toInt, BitVec.ofInt_toInt]

/-! ### ADD, MUL and CMP -/

/-- The first of two register operands is reported if it is out of range (R66). -/
theorem regOperands_of_ge_left {a : Byte} (ha : 8 ≤ a.toNat) (b : Byte) :
    regOperands a b = .error (.regIndexOutOfRange a) :=
  regOperands_error.mpr (.inl ⟨ha, rfl⟩)

/-- The second of two register operands is reported if it alone is out of range (R66, R100). -/
theorem regOperands_of_ge_right {a b : Byte} (ha : a.toNat < 8) (hb : 8 ≤ b.toNat) :
    regOperands a b = .error (.regIndexOutOfRange b) :=
  regOperands_error.mpr (.inr ⟨ha, hb, rfl⟩)

/-- ADD and MUL with two registers in range write the function of both to the first and go on (R79, R80). -/
theorem aluWrite_of_lt {f : Byte → Byte → Byte} {a b v : Byte} {s : State} (ha : a.toNat < 8) (hb : b.toNat < 8)
    (hv : v = f s.x[a.toNat] s.x[b.toNat]) :
    aluWrite f a b s = .next { s with x := s.x.set a.toNat v ha, pc := s.pc + 3 } := by
  rw [hv]
  exact aluWrite_next.mpr ⟨⟨a.toNat, ha⟩, ⟨b.toNat, hb⟩, rfl, rfl, rfl⟩

/-- CMP with two registers in range writes whether they hold equal bytes to the flag and goes on (R81). -/
theorem execCmp_of_lt {a b : Byte} (s : State) (ha : a.toNat < 8) (hb : b.toNat < 8) :
    execCmp a b s = .next { s with E := decide (s.x[a.toNat] = s.x[b.toNat]), pc := s.pc + 3 } :=
  execCmp_next.mpr ⟨⟨a.toNat, ha⟩, ⟨b.toNat, hb⟩, rfl, rfl, rfl⟩

/-- A Running machine at the opcode of a three-byte instruction: at 255 and at 254 the operand byte that would stand at 256 is the
one missing; below, the instruction runs with the two bytes that follow (R65, R69; D4). -/
theorem stepWith_of_three_byte_opcode_at_pc {opc : Opc} {m : Mnemonic} {s : State} (hm : m.length = 3) (hinj : opc.Injective)
    (hs : s.status = .running) (hat : s.BytesAt [opc m]) :
    (s.pc = 255 → stepWith opc s = .fault (.fatalAbort (.memAddrOutOfRange (s.pc + 1)) s.out)) ∧
    (s.pc = 254 → stepWith opc s = .fault (.fatalAbort (.memAddrOutOfRange (s.pc + 2)) s.out)) ∧
    (s.pc < 254 → stepWith opc s = exec (m.build (s.mem.read (s.pc + 1)) (s.mem.read (s.pc + 2))) s) := by
  refine ⟨fun hpc => ?_, fun hpc => ?_, fun hpc => ?_⟩
  · exact stepWith_of_operand_past_end hinj hs hat (show s.pc + 1 = 256 by omega) (by omega)
  · exact stepWith_of_operand_past_end hinj hs hat (show s.pc + 2 = 256 by omega) (by omega)
  · exact stepWith_of_opcode_at_pc hinj hs hat (show s.pc + m.length ≤ 256 by omega)

/-- Settles O13: the register check in operand order, then the wrapped sum. -/
theorem addWritesTheWrappedSum : Obligations.AddWritesTheWrappedSum := by
  refine ⟨fun a b s => ⟨fun ha => ?_, fun ha hb => ?_, fun ha hb v hv => ?_⟩,
    fun opc s => stepWith_of_three_byte_opcode_at_pc (m := .ADD) rfl⟩
  · exact complete_bind_of_error (regOperands_of_ge_left ha b) _ s
  · exact complete_bind_of_error (regOperands_of_ge_right ha hb) _ s
  · exact aluWrite_of_lt ha hb (BitVec.eq_of_toNat_eq (hv.trans (aluAdd_toNat _ _).symm))

/-- Settles O14: the register check in operand order, then the low byte of the product. -/
theorem mulWritesTheLowByteOfTheProduct : Obligations.MulWritesTheLowByteOfTheProduct := by
  refine ⟨fun a b s => ⟨fun ha => ?_, fun ha hb => ?_, fun ha hb v hv => ?_⟩,
    fun opc s => stepWith_of_three_byte_opcode_at_pc (m := .MUL) rfl⟩
  · exact complete_bind_of_error (regOperands_of_ge_left ha b) _ s
  · exact complete_bind_of_error (regOperands_of_ge_right ha hb) _ s
  · exact aluWrite_of_lt ha hb (BitVec.eq_of_toNat_eq (hv.trans (aluMul_toNat _ _).symm))

/-- Settles O15: the register check in operand order, then the flag. -/
theorem cmpSetsTheEqualFlag : Obligations.CmpSetsTheEqualFlag := by
  refine ⟨fun a b s => ⟨fun ha => ?_, fun ha hb => ?_, fun ha hb => ?_⟩,
    fun opc s => stepWith_of_three_byte_opcode_at_pc (m := .CMP) rfl⟩
  · exact complete_bind_of_error (regOperands_of_ge_left ha b) _ s
  · exact complete_bind_of_error (regOperands_of_ge_right ha hb) _ s
  · exact execCmp_of_lt s ha hb

end Sys2Proof.Machine
end

section
/-! SUPPORT. PUSH and POP, whole (spec/43_stack.md, R83, R84), and the two in a row (spec/95_test_vectors.md W4). -/

namespace Sys2Proof.Machine

/-- A Running machine at the opcode of a two-byte instruction: at 255 the operand byte is the one missing; below, the instruction
runs with the byte that follows (R65, R69; D4). -/
theorem stepWith_of_two_byte_opcode_at_pc {opc : Opc} {m : Mnemonic} {s : State} (hm : m.length = 2) (hinj : opc.Injective)
    (hs : s.status = .running) (hat : s.BytesAt [opc m]) :
    (s.pc = 255 → stepWith opc s = .fault (.fatalAbort (.memAddrOutOfRange (s.pc + 1)) s.out)) ∧
    (s.pc < 255 → stepWith opc s = exec (m.build (s.mem.read (s.pc + 1)) (s.mem.read (s.pc + 2))) s) := by
  refine ⟨fun hpc => ?_, fun hpc => ?_⟩
  · exact stepWith_of_operand_past_end hinj hs hat (show s.pc + 1 = 256 by omega) (by omega)
  · exact stepWith_of_opcode_at_pc hinj hs hat (show s.pc + m.length ≤ 256 by omega)

/-- An instruction whose register operand is in range and that raises after its check aborts with that reason. -/
theorem complete_regOperand_bind_of_error {r : Byte} {e : AbortReason} {f : RegIdx → Except AbortReason State} (hr : r.toNat < 8)
    (h : f ⟨r.toNat, hr⟩ = .error e) (s : State) : complete s (regOperand r >>= f) = .fault (.fatalAbort e s.out) := by
  rw [regOperand_of_lt hr, ok_bind, h]; rfl

/-! ### PUSH -/

/-- PUSH at SP 0 aborts before anything is written (R83; D5). -/
theorem execPush_of_sp_zero {r : Byte} {s : State} (hr : r.toNat < 8) (hsp : s.sp.toNat = 0) :
    execPush r s = .fault (.fatalAbort (.spOutOfRange (-1)) s.out) :=
  complete_regOperand_bind_of_error hr (bind_error.mpr (.inl (spBelow_error.mpr ⟨hsp, rfl⟩))) s

/-- Settles O16: the register check, the SP check, then the next state of PUSH, the register read after the SP write. -/
theorem pushDecrementsThenStores : Obligations.PushDecrementsThenStores := by
  refine ⟨fun r s => ⟨fun hr => ?_, fun hr hsp => ?_, fun hr d hd => ?_⟩,
    fun opc s => stepWith_of_two_byte_opcode_at_pc (m := .PUSH) rfl⟩
  · exact complete_bind_of_error (regOperand_of_ge hr) _ s
  · exact execPush_of_sp_zero hr hsp
  · exact execPush_next.mpr ⟨⟨r.toNat, hr⟩, d, rfl, hd, rfl⟩

/-! ### POP -/

/-- POP aborts where SP, read after the register write, is 255 (R84; D5). -/
theorem execPop_of_sp_last {r : Byte} {s : State} (hr : r.toNat < 8)
    (hsp : (s.setReg ⟨r.toNat, hr⟩ (s.mem.read s.sp.toNat)).sp.toNat = 255) :
    execPop r s = .fault (.fatalAbort (.spOutOfRange 256) s.out) := by
  refine complete_regOperand_bind_of_error hr ?_ s
  rw [memRead_byte, ok_bind]
  exact bind_error.mpr (.inl (spAbove_error.mpr ⟨hsp, rfl⟩))

/-- Settles O17: the register check, then SP as the register write left it: its check, or the next state of POP. -/
theorem popLoadsThenIncrements : Obligations.PopLoadsThenIncrements := by
  refine ⟨fun r s => ⟨fun hr => ?_, ?_⟩, fun opc s => stepWith_of_two_byte_opcode_at_pc (m := .POP) rfl⟩
  · exact complete_bind_of_error (regOperand_of_ge hr) _ s
  · rintro hr x' rfl
    exact ⟨execPop_of_sp_last hr, fun u hu => execPop_next.mpr ⟨⟨r.toNat, hr⟩, u, rfl, hu, rfl⟩⟩

/-! ### PUSH, then POP -/

/-- Writing a register its own value changes nothing. -/
theorem State.setReg_reg (s : State) (i : RegIdx) : s.setReg i (s.reg i) = s := by
  simp [State.setReg, State.reg]

/-- An SP write after another, back to the SP before both, leaves every register as it was before both. -/
theorem State.reg_setSp_setSp_sp (s : State) (d : Byte) (i : RegIdx) : ((s.setSp d).setSp s.sp).reg i = s.reg i := by
  by_cases hi : i = Config.spIndex
  · rw [hi, State.reg_setSp_sp, State.reg_spIndex]
  · rw [State.reg_setSp_other _ hi, State.reg_setSp_other _ hi]

/-- POP of a register that holds the top of the stack already moves SP and the pc alone. -/
theorem execPop_of_reg_eq_top {r u : Byte} {i : RegIdx} {s : State} (hi : r.toNat = i.val) (hu : u.toNat = s.sp.toNat + 1)
    (htop : s.mem.read s.sp.toNat = s.reg i) : execPop r s = .next ((s.setSp u).advance 2) := by
  have hkeep : s.setReg i (s.mem.read s.sp.toNat) = s := by rw [htop, s.setReg_reg]
  exact execPop_next.mpr ⟨i, u, hi, by rw [hkeep, hu], by rw [hkeep]⟩

/-- Settles O38: PUSH leaves the register, R7 too, equal to the top of the stack, so POP of it only moves SP back. -/
theorem pushThenPopRestoresTheRegisters : Obligations.PushThenPopRestoresTheRegisters := by
  intro r s hr (hsp : 1 ≤ s.sp.toNat) hwf
  obtain ⟨d, hd⟩ : ∃ d : Byte, d.toNat + 1 = s.sp.toNat := ⟨s.sp - 1#8, by bv_omega⟩
  have hpush := execPush_next.mpr ⟨⟨r.toNat, hr⟩, d, rfl, hd, rfl⟩
  refine ⟨_, _, hpush, execPop_of_reg_eq_top (u := s.sp) (i := ⟨r.toNat, hr⟩) rfl ?_ ?_, ?_, fun a ha => ?_⟩
  · simpa using hd.symm
  · simpa using Memory.read_write_same hwf d.toNat _
  · exact State.ext_of_elements rfl (s.reg_setSp_setSp_sp d) rfl rfl rfl rfl
  · exact Memory.read_write_other s.mem (fun e => ha (by rw [e]; exact hd)) _

end Sys2Proof.Machine
end

section
/-! SUPPORT. Control transfer (spec/44_control_transfer.md): CALL, RET, JMP, JEQ and JNE, whole (R87 to R91), a RET after its CALL
(R92), and a jump to its own address (R120). -/

namespace Sys2Proof.Machine

/-! ### CALL -/

/-- CALL at SP 0 aborts before the return address is checked (R87, R100; D5, D10). -/
theorem execCall_of_sp_zero {r : Byte} {s : State} (hr : r.toNat < 8) (hsp : s.sp.toNat = 0) :
    execCall r s = .fault (.fatalAbort (.spOutOfRange (-1)) s.out) :=
  complete_regOperand_bind_of_error hr (bind_error.mpr (.inl (spBelow_error.mpr ⟨hsp, rfl⟩))) s

/-- Above SP 0 there is a cell below the top of the stack. -/
theorem exists_spBelow {s : State} (hsp : 0 < s.sp.toNat) : ∃ d, spBelow s = .ok d :=
  ⟨s.sp - 1#8, spBelow_ok.mpr (by bv_omega)⟩

/-- CALL with a cell below SP aborts if its return address does not fit a byte (R87; D6). -/
theorem execCall_of_return_past_end {r : Byte} {s : State} (hr : r.toNat < 8) (hsp : 0 < s.sp.toNat) (hpc : 255 < s.pc + 2) :
    execCall r s = .fault (.fatalAbort (.returnAddrOutOfRange (s.pc + 2)) s.out) := by
  obtain ⟨d, hd⟩ := exists_spBelow hsp
  have hret := returnAddress_error.mpr ⟨hpc, rfl⟩
  exact complete_regOperand_bind_of_error hr (bind_error.mpr (.inr ⟨d, hd, bind_error.mpr (.inl hret)⟩)) s

/-- Settles O18: the three checks in order, then the next state of CALL, its target read after the SP write. -/
theorem callStoresTheReturnAddressAndRedirects : Obligations.CallStoresTheReturnAddressAndRedirects := by
  refine ⟨fun r s => ⟨fun hr => ?_, fun hr hsp => ?_, fun hr hsp hpc => ?_, fun hr d ret hd hret => ?_⟩,
    fun opc s => stepWith_of_two_byte_opcode_at_pc (m := .CALL) rfl⟩
  · exact complete_bind_of_error (regOperand_of_ge hr) _ s
  · exact execCall_of_sp_zero hr hsp
  · exact execCall_of_return_past_end hr hsp hpc
  · exact execCall_next.mpr ⟨⟨r.toNat, hr⟩, d, ret, rfl, hd, hret, rfl⟩

/-! ### RET -/

/-- RET at SP 255 aborts (R88; D5). -/
theorem execRet_of_sp_last {s : State} (hsp : s.sp.toNat = 255) :
    execRet s = .fault (.fatalAbort (.spOutOfRange 256) s.out) := by
  rw [execRet, memRead_byte, ok_bind]
  exact complete_bind_of_error (spAbove_error.mpr ⟨hsp, rfl⟩) _ s

/-- Settles O19: the SP check, then the next state of RET, whose opcode byte is the whole instruction. -/
theorem retPopsThePc : Obligations.RetPopsThePc := by
  refine ⟨fun s => ⟨execRet_of_sp_last, fun u hu => ?_⟩, fun opc s hinj hs => ⟨stepWith_of_pc_ge opc hs, fun hat => ?_⟩⟩
  · exact execRet_next.mpr ⟨u, hu, rfl⟩
  · exact stepWith_of_opcode_at_pc hinj hs hat (bytesAt_singleton.mp hat).1

/-! ### A RET after its CALL -/

/-- CALL leaves its return address at the new top of the stack, one cell below the old (R87). -/
theorem execCall_top {r : Byte} {s t : State} (hwf : s.mem.wf = true) (h : execCall r s = .next t) :
    t.sp.toNat + 1 = s.sp.toNat ∧ (t.mem.read t.sp.toNat).toNat = s.pc + 2 := by
  obtain ⟨i, d, ret, -, hd, hret, rfl⟩ := execCall_next.mp h
  simp only [State.redirect_sp, State.redirect_mem, State.sp_setSp, State.setSp_mem, State.setMem_mem]
  exact ⟨hd, by rw [Memory.read_write_same hwf, hret]⟩

/-- Settles O39: RET finds SP and the return address as CALL left them, so it goes there and moves SP back. -/
theorem retResumesAfterTheCall : Obligations.RetResumesAfterTheCall := by
  intro r s t u hwf hcall (hsp : u.sp = t.sp) (hcell : u.mem.read u.sp.toNat = t.mem.read t.sp.toNat)
  obtain ⟨hback, hret⟩ := execCall_top hwf hcall
  refine execRet_next.mpr ⟨s.sp, by rw [hsp, hback], ?_⟩
  rw [State.redirect, hcell, hret]
  rfl

/-! ### JMP -/

/-- JMP to a register in range goes to the address it holds (R89). -/
theorem execJmp_of_lt {r : Byte} (s : State) (hr : r.toNat < 8) : execJmp r s = .next (s.setPc s.x[r.toNat].toNat) :=
  execJmp_next.mpr ⟨⟨r.toNat, hr⟩, rfl, rfl⟩

/-- Settles O20: the register check, then the next state of JMP. -/
theorem jmpGoesToTheRegister : Obligations.JmpGoesToTheRegister := by
  refine ⟨fun r s => ⟨fun hr => ?_, execJmp_of_lt s⟩, fun opc s => stepWith_of_two_byte_opcode_at_pc (m := .JMP) rfl⟩
  exact complete_bind_of_error (regOperand_of_ge hr) _ s

/-- A JMP at the pc to a register that holds the pc is a step to the same state. -/
theorem stepWith_of_jmp_to_itself {opc : Opc} {r : Byte} {s : State} (hinj : opc.Injective) (hs : s.status = .running)
    (hat : s.BytesAt [opc .JMP, r]) (hr : r.toNat < 8) (hself : s.x[r.toNat].toNat = s.pc) :
    stepWith opc s = .next s := by
  have hstep := stepWith_of_fetchWith_ok hs (fetchWith_of_bytesAt (i := .jmp r) hinj hat)
  have hjmp := execJmp_of_lt s hr
  rw [hself] at hjmp
  exact hstep.trans hjmp

/-- Settles O49, by induction on the number of steps: each is a step to the same state. -/
theorem aJumpToItselfNeverStops : Obligations.AJumpToItselfNeverStops := by
  intro opc r s hinj hs hat ⟨hr, hself⟩ fuel
  induction fuel with
  | zero => rfl
  | succ n ih => rw [runWith_succ_of_next n hs (stepWith_of_jmp_to_itself hinj hs hat hr hself), ih]

/-! ### JEQ and JNE -/

/-- A conditional branch that is taken to a register in range goes to the address it holds (R90, R91). -/
theorem branchIf_of_taken {taken : Bool} (h : taken = true) {r : Byte} (hr : r.toNat < 8) (s : State) :
    branchIf taken r s = .next (s.setPc s.x[r.toNat].toNat) :=
  branchIf_next.mpr ⟨⟨r.toNat, hr⟩, rfl, (if_pos h).symm⟩

/-- A conditional branch with a register in range that is not taken goes past itself (R90, R91). -/
theorem branchIf_of_not_taken {taken : Bool} (h : taken = false) {r : Byte} (hr : r.toNat < 8) (s : State) :
    branchIf taken r s = .next (s.setPc (s.pc + 2)) :=
  branchIf_next.mpr ⟨⟨r.toNat, hr⟩, rfl, (if_neg (Bool.eq_false_iff.mp h)).symm⟩

/-- Settles O21: the register check on either branch, then the branch on the flag. -/
theorem jeqGoesToTheRegisterIfEqual : Obligations.JeqGoesToTheRegisterIfEqual := by
  refine ⟨fun r s => ⟨fun hr => ?_, fun hr => ⟨fun hE => ?_, fun hE => ?_⟩⟩,
    fun opc s => stepWith_of_two_byte_opcode_at_pc (m := .JEQ) rfl⟩
  · exact complete_bind_of_error (regOperand_of_ge hr) _ s
  · exact branchIf_of_taken hE hr s
  · exact branchIf_of_not_taken hE hr s

/-- Settles O22: the register check on either branch, then the branch on the flag reversed. -/
theorem jneGoesToTheRegisterIfNotEqual : Obligations.JneGoesToTheRegisterIfNotEqual := by
  refine ⟨fun r s => ⟨fun hr => ?_, fun hr => ⟨fun hE => ?_, fun hE => ?_⟩⟩,
    fun opc s => stepWith_of_two_byte_opcode_at_pc (m := .JNE) rfl⟩
  · exact complete_bind_of_error (regOperand_of_ge hr) _ s
  · exact branchIf_of_taken (congrArg not hE) hr s
  · exact branchIf_of_not_taken (congrArg not hE) hr s

end Sys2Proof.Machine
end

section
/-! SUPPORT. The exceptions (spec/60_exceptions.md): which fatal abort each instruction can end in (R95, R96), and which of several
conditions is reported (R100). -/

namespace Sys2Proof.Machine

/-! ### The aborts of the handlers -/

/-- An instruction of one register operand aborts in its check, or in what follows it with the register named. -/
theorem abort_of_regOperand {r : Byte} {f : RegIdx → Except AbortReason State} {s : State} {e : AbortReason} {out : List Byte}
    (h : complete s (regOperand r >>= f) = .fault (.fatalAbort e out)) :
    (∃ b ∈ [r], 8 ≤ b.toNat ∧ e = .regIndexOutOfRange b) ∨ ∃ i : RegIdx, r.toNat = i.val ∧ f i = .error e := by
  obtain hr | ⟨i, hi, hf⟩ := bind_error.mp (complete_fatalAbort h)
  · exact .inl ⟨r, List.mem_singleton_self r, regOperand_error.mp hr⟩
  · exact .inr ⟨i, regOperand_ok.mp hi, hf⟩

/-- An instruction of one register operand that raises nothing after its check aborts in the check alone. -/
theorem abort_of_regOperand_then_ok {r : Byte} {f : RegIdx → State} {s : State} {e : AbortReason} {out : List Byte}
    (h : complete s (regOperand r >>= fun i => .ok (f i)) = .fault (.fatalAbort e out)) :
    ∃ b ∈ [r], 8 ≤ b.toNat ∧ e = .regIndexOutOfRange b := by
  obtain hb | ⟨i, -, hf⟩ := abort_of_regOperand h
  · exact hb
  · cases hf

/-- An instruction of two register operands that raises nothing after their check aborts in the check alone. -/
theorem abort_of_regOperands_then_ok {a a' : Byte} {f : RegIdx × RegIdx → State} {s : State} {e : AbortReason} {out : List Byte}
    (h : complete s (regOperands a a' >>= fun p => .ok (f p)) = .fault (.fatalAbort e out)) :
    ∃ b ∈ [a, a'], 8 ≤ b.toNat ∧ e = .regIndexOutOfRange b := by
  obtain hr | ⟨p, -, hf⟩ := bind_error.mp (complete_fatalAbort h)
  · obtain ha | ⟨-, ha'⟩ := regOperands_error.mp hr
    · exact ⟨a, by simp, ha⟩
    · exact ⟨a', by simp, ha'⟩
  · cases hf

/-- PUSH aborts in its register check, or at SP 0 (R83; D5). -/
theorem execPush_abort {r : Byte} {s : State} {e : AbortReason} {out : List Byte}
    (h : execPush r s = .fault (.fatalAbort e out)) :
    (∃ b ∈ [r], 8 ≤ b.toNat ∧ e = .regIndexOutOfRange b) ∨ s.sp.toNat = 0 ∧ e = .spOutOfRange (-1) := by
  obtain hb | ⟨i, -, hf⟩ := abort_of_regOperand h
  · exact .inl hb
  · simp only [memWrite_byte, ok_bind, bind_error, spBelow_error, reduceCtorEq, and_false, exists_false, or_false] at hf
    exact .inr hf

/-- POP aborts in its register check, or where SP, read after the register write, is 255 (R84; D5). -/
theorem execPop_abort {r : Byte} {s : State} {e : AbortReason} {out : List Byte}
    (h : execPop r s = .fault (.fatalAbort e out)) :
    (∃ b ∈ [r], 8 ≤ b.toNat ∧ e = .regIndexOutOfRange b) ∨
      ∃ i : RegIdx, r.toNat = i.val ∧ (s.setReg i (s.mem.read s.sp.toNat)).sp.toNat = 255 ∧ e = .spOutOfRange 256 := by
  obtain hb | ⟨i, hi, hf⟩ := abort_of_regOperand h
  · exact .inl hb
  · simp only [memRead_byte, ok_bind, bind_error, spAbove_error, reduceCtorEq, and_false, exists_false, or_false] at hf
    exact .inr ⟨i, hi, hf⟩

/-- CALL aborts in its register check, at SP 0, or because its return address does not fit a byte (R87; D5, D6). -/
theorem execCall_abort {r : Byte} {s : State} {e : AbortReason} {out : List Byte}
    (h : execCall r s = .fault (.fatalAbort e out)) :
    (∃ b ∈ [r], 8 ≤ b.toNat ∧ e = .regIndexOutOfRange b) ∨ (s.sp.toNat = 0 ∧ e = .spOutOfRange (-1)) ∨
      255 < s.pc + 2 ∧ e = .returnAddrOutOfRange (s.pc + 2) := by
  obtain hb | ⟨i, -, hf⟩ := abort_of_regOperand h
  · exact .inl hb
  · obtain hsp | ⟨d, -, hf⟩ := bind_error.mp hf
    · exact .inr (.inl (spBelow_error.mp hsp))
    · simp only [memWrite_byte, ok_bind, bind_error, returnAddress_error, reduceCtorEq, and_false, exists_false, or_false] at hf
      exact .inr (.inr hf)

/-- RET aborts at SP 255 alone (R88; D5). -/
theorem execRet_abort {s : State} {e : AbortReason} {out : List Byte} (h : execRet s = .fault (.fatalAbort e out)) :
    s.sp.toNat = 255 ∧ e = .spOutOfRange 256 := by
  have hf := complete_fatalAbort h
  simpa only [memRead_byte, ok_bind, bind_error, spAbove_error, reduceCtorEq, and_false, exists_false, or_false] using hf

/-- Every way a handler can abort: a register operand out of range, SP moved below 0 or past 255, or a return address that does not
fit a byte (R96). -/
theorem exec_abort_cases {i : Instr} {s : State} {e : AbortReason} {out : List Byte}
    (h : exec i s = .fault (.fatalAbort e out)) :
    (∃ b ∈ i.regOperands, 8 ≤ b.toNat ∧ e = .regIndexOutOfRange b) ∨
    ((s.sp.toNat = 0 ∧ e = .spOutOfRange (-1)) ∧ ∃ r, i = .push r ∨ i = .call r) ∨
    ((s.sp.toNat = 255 ∧ e = .spOutOfRange 256) ∧ i = .ret) ∨
    (∃ r, i = .pop r ∧
      ∃ k : RegIdx, r.toNat = k.val ∧ (s.setReg k (s.mem.read s.sp.toNat)).sp.toNat = 255 ∧ e = .spOutOfRange 256) ∨
    ((255 < s.pc + 2 ∧ e = .returnAddrOutOfRange (s.pc + 2)) ∧ ∃ r, i = .call r) := by
  cases i with
  | nop => cases (execNop_next.mpr rfl).symm.trans h
  | hlt => cases (execHlt_next.mpr rfl).symm.trans h
  | ldi r imm => exact .inl (abort_of_regOperand_then_ok h)
  | prn r => exact .inl (abort_of_regOperand_then_ok h)
  | add a b => exact .inl (abort_of_regOperands_then_ok h)
  | mul a b => exact .inl (abort_of_regOperands_then_ok h)
  | cmp a b => exact .inl (abort_of_regOperands_then_ok h)
  | push r =>
    obtain hb | hsp := execPush_abort h
    · exact .inl hb
    · exact .inr (.inl ⟨hsp, r, .inl rfl⟩)
  | pop r =>
    obtain hb | hsp := execPop_abort h
    · exact .inl hb
    · exact .inr (.inr (.inr (.inl ⟨r, rfl, hsp⟩)))
  | call r =>
    obtain hb | hsp | hret := execCall_abort h
    · exact .inl hb
    · exact .inr (.inl ⟨hsp, r, .inr rfl⟩)
    · exact .inr (.inr (.inr (.inr ⟨hret, r, rfl⟩)))
  | ret => exact .inr (.inr (.inl ⟨execRet_abort h, rfl⟩))
  | jmp r => exact .inl (abort_of_regOperand_then_ok h)
  | jeq r => exact .inl (abort_of_regOperand_then_ok h)
  | jne r => exact .inl (abort_of_regOperand_then_ok h)

/-- A handler's fault is a fatal abort with the earlier output (R29). -/
theorem exec_fault {i : Instr} {s : State} {f : Fault} (h : exec i s = .fault f) : ∃ e, f = .fatalAbort e s.out := by
  obtain ⟨t, ht⟩ | ⟨e, he⟩ := exec_next_or_abort i s
  · cases ht.symm.trans h
  · cases he.symm.trans h
    exact ⟨e, rfl⟩

/-- Settles O40: each way a handler can abort has its row in the table, and none of them is a memory address. -/
theorem handlersAbortOnlyAsTabled : Obligations.HandlersAbortOnlyAsTabled := by
  intro i s f h
  obtain ⟨e, rfl⟩ := exec_fault h
  refine ⟨e, rfl, ?_⟩
  obtain ⟨b, hb, hge, rfl⟩ | ⟨⟨hsp, rfl⟩, hi⟩ | ⟨⟨hsp, rfl⟩, hi⟩ | ⟨r, rfl, ⟨k, hk⟩, rfl, hsp, rfl⟩ | ⟨⟨hpc, rfl⟩, hi⟩ :=
    exec_abort_cases h
  · exact ⟨hb, hge⟩
  · exact .inl ⟨rfl, hsp, hi⟩
  · exact .inr (.inl ⟨rfl, hsp, hi⟩)
  · exact .inr (.inr ⟨rfl, r, hk, rfl, hsp⟩)
  · exact ⟨rfl, hpc, hi⟩

/-! ### The order of conditions -/

/-- Settles O42: the unknown byte is found before an operand is read, the missing operand byte before a register is checked, and
the register check and then the SP check come first in the body of each instruction that has them. -/
theorem theFirstConditionIsTheOneReported : Obligations.TheFirstConditionIsTheOneReported := by
  refine ⟨fun opc s op hs hpc hbyte hop => ?_, fun opc s m a hinj hs hm hpc hat _ => ?_, fun a b s ha => ?_, fun r s hr => ?_,
    fun r s => execCall_of_sp_zero⟩
  · have hstep := stepWith_of_fetchWith_unknownOpcode hs
      (fetchWith_unknownOpcode.mpr ⟨by rw [hpc]; decide, by rw [hpc]; exact hbyte, hop⟩)
    rw [hpc] at hstep
    exact hstep
  · have hop : s.BytesAt [opc m] := bytesAt_singleton.mpr (hat ⟨0, Nat.two_pos⟩)
    have hlen : m.length = 3 := by rw [Mnemonic.length, hm]
    obtain ⟨-, habort, -⟩ := stepWith_of_three_byte_opcode_at_pc hlen hinj hs hop
    rw [habort hpc, hpc]
  · have hbad := regOperands_of_ge_left ha b
    exact ⟨complete_bind_of_error hbad _ s, complete_bind_of_error hbad _ s, complete_bind_of_error hbad _ s⟩
  · have hbad := regOperand_of_ge hr
    exact ⟨complete_bind_of_error hbad _ s, complete_bind_of_error hbad _ s⟩

end Sys2Proof.Machine
end

section
/-! SUPPORT. What is seen of a run from outside: the codes and values of the status interface (R111), what the caller is shown
(R114), and the entries of the optional trace (R108). -/

namespace Sys2Proof.Machine

/-! ### The status interface -/

/-- The status that a code and recorded values stand for, if they stand for one: the status interface read back (R111). -/
def statusOfCode : Nat → List Int → Option Status
  | 0, [] => some .running
  | 1, [] => some .halted
  | 2, [op, p] => some (.haltedUnknown (BitVec.ofInt 8 op) p.toNat)
  | 3, [a] => some (.aborted (.memAddrOutOfRange a.toNat))
  | 4, [i] => some (.aborted (.regIndexOutOfRange (BitVec.ofInt 8 i)))
  | 5, [t] => some (.aborted (.spOutOfRange t))
  | 6, [v] => some (.aborted (.returnAddrOutOfRange v.toNat))
  | _, _ => none

/-- A byte recorded as an integer is read back as itself. -/
theorem byte_ofInt_toNat (b : Byte) : BitVec.ofInt 8 (b.toNat : Int) = b := by
  rw [BitVec.ofInt_natCast, BitVec.ofNat_toNat, BitVec.setWidth_eq]

/-- The code and the recorded values of a status stand for it. -/
theorem statusOfCode_code_recorded (st : Status) : statusOfCode st.code st.recorded = some st := by
  cases st with
  | running => rfl
  | halted => rfl
  | haltedUnknown op p => simp only [Status.code, Status.recorded, statusOfCode, byte_ofInt_toNat, Int.toNat_natCast]
  | aborted e =>
    cases e with
    | memAddrOutOfRange a => rfl
    | regIndexOutOfRange i => simp only [Status.code, Status.recorded, statusOfCode, byte_ofInt_toNat]
    | spOutOfRange t => rfl
    | returnAddrOutOfRange v => rfl

/-- Settles O43: the codes are as listed, and a status is read back from its code and recorded values. -/
theorem statusCodesTellTheStopsApart : Obligations.StatusCodesTellTheStopsApart := by
  refine ⟨fun _ _ _ _ _ _ => ⟨rfl, rfl, rfl, rfl, rfl, rfl, rfl⟩, fun p q hcode hrec => Option.some.inj ?_⟩
  calc some p = statusOfCode p.code p.recorded := (statusOfCode_code_recorded p).symm
    _ = statusOfCode q.code q.recorded := by rw [hcode, hrec]
    _ = some q := statusOfCode_code_recorded q

/-! ### What the caller is shown -/

/-- No status has a code past 6 (R95). -/
theorem Status.code_le (st : Status) : st.code ≤ 6 := by
  cases st with
  | aborted e => cases e <;> simp [Status.code]
  | _ => simp [Status.code]

/-- Code 0 is that of Running alone (R111). -/
theorem Status.code_pos {st : Status} (h : st ≠ .running) : 1 ≤ st.code := by
  cases st with
  | running => exact absurd rfl h
  | aborted e => cases e <;> simp [Status.code]
  | _ => simp [Status.code]

/-- Of a stop the code and the recorded values are presented. -/
theorem Status.present_of_stop {st : Status} (h : st ≠ .running) : st.present = some (st.code, st.recorded) := if_neg h

/-- A presented code is that of a stop. -/
theorem Status.present_code {st : Status} {c : Nat × List Int} (h : st.present = some c) : 1 ≤ c.1 ∧ c.1 ≤ 6 := by
  by_cases hst : st = .running
  · subst hst; cases h
  · cases (Status.present_of_stop hst).symm.trans h
    exact ⟨Status.code_pos hst, st.code_le⟩

/-- What the caller is shown is a presented status. -/
theorem presented_eq_some {o : SessionOutcome} {c : Nat × List Int} (h : presented o = some c) :
    ∃ st : Status, st.present = some c := by
  cases o with
  | next ss =>
    cases ss with
    | loading s => cases h
    | started s => exact ⟨s.status, h⟩
  | fault f =>
    obtain ⟨st, -, hst⟩ := Option.bind_eq_some_iff.mp h
    exact ⟨st, hst⟩
  | refused r => cases h

/-- A step of a Running machine goes on or aborts (R93). -/
theorem stepWith_next_or_abort (opc : Opc) {s : State} (hs : s.status = .running) :
    (∃ t, stepWith opc s = .next t) ∨ ∃ e, stepWith opc s = .fault (.fatalAbort e s.out) := by
  obtain ⟨t, ht, -⟩ | he := everyStepEndsInANamedWay opc s hs
  · exact .inl ⟨t, ht⟩
  · exact .inr he

/-- A run reaches a state or ends in a fatal abort: the loop takes no step of a stopped machine (R62, R71). -/
theorem runWith_next_or_abort (opc : Opc) (n : Nat) (s : State) :
    (∃ t, runWith opc n s = .next t) ∨ ∃ e out, runWith opc n s = .fault (.fatalAbort e out) := by
  induction n generalizing s with
  | zero => exact .inl ⟨s, rfl⟩
  | succ n ih =>
    by_cases hs : s.status = .running
    · obtain ⟨t, ht⟩ | ⟨e, he⟩ := stepWith_next_or_abort opc hs
      · rw [runWith_succ_of_next n hs ht]
        exact ih t
      · exact .inr ⟨e, s.out, runWith_succ_of_fault n hs he⟩
    · exact .inl ⟨s, runWith_of_not_running opc (n + 1) hs⟩

/-- Settles O55: the run reaches a state, whose status is presented, or a fatal abort, whose reason is. -/
theorem theCallerIsShownTheStopAlone : Obligations.TheCallerIsShownTheStopAlone := by
  refine ⟨fun opc fuel s _ => ?_, fun o c h => ?_⟩
  · simp only [Session.run]
    obtain ⟨t, ht⟩ | ⟨e, out, he⟩ := runWith_next_or_abort opc fuel s
    · rw [ht]
      exact .inl ⟨t, rfl, fun hrun => congrArg Status.present hrun, Status.present_of_stop⟩
    · rw [he]
      exact .inr ⟨e, out, rfl, Status.present_of_stop (st := .aborted e) nofun⟩
  · obtain ⟨st, hst⟩ := presented_eq_some h
    exact Status.present_code hst

/-! ### The trace -/

section
variable {opc : Opc} {s : State}

/-- Where there is no opcode fetch the step is a fault. -/
theorem stepWith_of_no_fetch (h : ¬(s.status = .running ∧ s.pc < Config.memSize)) : ∃ f, stepWith opc s = .fault f := by
  by_cases hs : s.status = .running
  · exact ⟨_, stepWith_of_pc_ge opc hs (Nat.not_lt.mp fun hpc => h ⟨hs, hpc⟩)⟩
  · exact ⟨_, stepWith_of_not_running opc hs⟩

/-- A run from where there is no opcode fetch reaches no state but that one (R62). -/
theorem runWith_of_no_fetch (h : ¬(s.status = .running ∧ s.pc < Config.memSize)) {k : Nat} {u : State}
    (hrun : runWith opc k s = .next u) : u = s := by
  cases k with
  | zero => cases hrun; rfl
  | succ k =>
    by_cases hs : s.status = .running
    · obtain ⟨f, hf⟩ := stepWith_of_no_fetch h
      cases (runWith_succ_of_fault k hs hf).symm.trans hrun
    · cases (runWith_of_not_running opc (k + 1) hs).symm.trans hrun
      rfl

/-- A run from where there is no opcode fetch leaves no trace. -/
theorem traceRun_of_no_fetch (h : ¬(s.status = .running ∧ s.pc < Config.memSize)) (n : Nat) : traceRun opc n s = [] := by
  cases n with
  | zero => rfl
  | succ n =>
    obtain ⟨f, hf⟩ := stepWith_of_no_fetch (opc := opc) h
    simp only [traceRun, traceFetch, if_neg h, hf, List.nil_append]

/-- After an opcode fetch of a step that goes on, the trace goes on from the next state. -/
theorem traceRun_succ_of_next (h : s.status = .running ∧ s.pc < Config.memSize) {t : State} (ht : stepWith opc s = .next t)
    (n : Nat) : traceRun opc (n + 1) s = traceView s :: traceRun opc n t := by
  simp only [traceRun, traceFetch, if_pos h, ht, List.singleton_append]

/-- The opcode fetch of a step that aborts is the last entry. -/
theorem traceRun_succ_of_fault (h : s.status = .running ∧ s.pc < Config.memSize) {f : Fault} (hf : stepWith opc s = .fault f)
    (n : Nat) : traceRun opc (n + 1) s = [traceView s] := by
  simp only [traceRun, traceFetch, if_pos h, hf, List.append_nil]

/-- The first entry of a trace that has one is the view of the state it starts in. -/
theorem traceRun_succ_zero (h : s.status = .running ∧ s.pc < Config.memSize) (n : Nat) :
    (traceRun opc (n + 1) s)[0]? = some (traceView s) := by
  obtain ⟨t, ht⟩ | ⟨e, he⟩ := stepWith_next_or_abort opc h.1
  · rw [traceRun_succ_of_next h ht, List.getElem?_cons_zero]
  · rw [traceRun_succ_of_fault h he, List.getElem?_cons_zero]

end

/-- Entry `k` of a trace is the view of the state after `k` steps, if that state fetches an opcode. -/
theorem traceRun_getElem? (opc : Opc) (n k : Nat) (s : State) (e : TraceEntry) :
    (traceRun opc n s)[k]? = some e ↔
      k < n ∧ ∃ u, runWith opc k s = .next u ∧ u.status = .running ∧ u.pc < Config.memSize ∧ e = traceView u := by
  induction n generalizing k s with
  | zero => exact ⟨nofun, fun ⟨hk, _⟩ => absurd hk (Nat.not_lt_zero k)⟩
  | succ n ih =>
    by_cases h : s.status = .running ∧ s.pc < Config.memSize
    · cases k with
      | zero => simp [traceRun_succ_zero h, runWith, h, eq_comm]
      | succ k =>
        obtain ⟨t, ht⟩ | ⟨e', he⟩ := stepWith_next_or_abort opc h.1
        · rw [traceRun_succ_of_next h ht, runWith_succ_of_next k h.1 ht, List.getElem?_cons_succ, ih, Nat.succ_lt_succ_iff]
        · rw [traceRun_succ_of_fault h he, runWith_succ_of_fault k h.1 he]
          simp
    · rw [traceRun_of_no_fetch h]
      refine ⟨nofun, fun ⟨_, u, hrun, hstatus, hpc, _⟩ => ?_⟩
      cases runWith_of_no_fetch h hrun
      exact absurd ⟨hstatus, hpc⟩ h

/-- Settles O56: an entry is written with its three bytes, each shown or not as its address is below 256; the entries of a run, by
induction on the steps it is followed for. -/
theorem theTraceShowsEveryOpcodeFetch : Obligations.TheTraceShowsEveryOpcodeFetch := by
  refine ⟨fun s => ⟨_, rfl, rfl, fun k hk => ?_⟩, traceRun_getElem?⟩
  match k with
  | 0 => rfl
  | 1 => rfl
  | 2 => rfl

end Sys2Proof.Machine
end

section
/-! SUPPORT. Loading, the order of the caller's transactions, and straight-line runs (spec/70_reset_and_hazards.md): what the
loader's writes leave (R113), which transactions a machine admits (R112 to R114, R116), and that a run which transfers no control
stops (R120). -/

namespace Sys2Proof.Machine

/-! ### The bytes of an image in memory -/

/-- Bytes stored from `a` on leave the cells below `a`. -/
theorem read_storeBytes_below {l : List Byte} {a c : Nat} (h : c < a) (m : Memory) : (storeBytes l a m).read c = m.read c := by
  induction l generalizing a m with
  | nil => rfl
  | cons b l ih =>
    calc (storeBytes l (a + 1) (m.write a b)).read c = (m.write a b).read c := ih (Nat.lt_succ_of_lt h) _
      _ = m.read c := Memory.read_write_other m (Nat.ne_of_lt h) b

/-- Byte `k` of the bytes stored from `a` on stands at `a + k`; past the last of them the cells are as they were. -/
theorem read_storeBytes_add {l : List Byte} {a : Nat} {m : Memory} (hwf : m.wf = true) (h : a + l.length ≤ Config.memSize)
    (k : Nat) : (storeBytes l a m).read (a + k) = l[k]?.getD (m.read (a + k)) := by
  induction l generalizing a m k with
  | nil => rfl
  | cons b l ih =>
    rw [List.length_cons] at h
    cases k with
    | zero => exact (read_storeBytes_below (Nat.lt_succ_self a) _).trans (Memory.read_write_same hwf a b)
    | succ k =>
      rw [List.getElem?_cons_succ, ← Nat.succ_add_eq_add_succ, ← Memory.read_write_other m (a := a) (by omega) b]
      exact ih (Memory.write_wf hwf (by omega) b) (by omega) k

/-! ### The loader's writes -/

/-- The load of a byte at an address that is there is a write of memory, and the load goes on at the next address (R113). -/
theorem loadFrom_cons_of_lt {a : Nat} (ha : a < Config.memSize) (b : Byte) (l : List Byte) (s : State) :
    loadFrom a (b :: l) s = loadFrom (a + 1) l (s.setMem (s.mem.write a b)) := by
  rw [loadFrom, loadByte_next.mpr ⟨ha, rfl⟩]

/-- Bytes that fit from `a` on are loaded: they are stored in memory, and nothing else changes (R113). -/
theorem loadFrom_of_le {l : List Byte} {a : Nat} (h : a + l.length ≤ Config.memSize) (s : State) :
    loadFrom a l s = .next (s.setMem (storeBytes l a s.mem)) := by
  induction l generalizing a s with
  | nil => rfl
  | cons b l ih =>
    rw [List.length_cons] at h
    exact (loadFrom_cons_of_lt (by omega) b l s).trans (ih (by omega) _)

/-- Bytes that do not fit from `a` on are refused at 256, the first address that is not there (R113; D19, log 15). -/
theorem loadFrom_of_gt {l : List Byte} {a : Nat} (ha : a ≤ Config.memSize) (h : Config.memSize < a + l.length) (s : State) :
    loadFrom a l s = .refused (.loadAddrOutOfRange Config.memSize) := by
  induction l generalizing a s with
  | nil => exact absurd h (Nat.not_lt.mpr ha)
  | cons b l ih =>
    rw [List.length_cons] at h
    obtain hlt | rfl := Nat.lt_or_eq_of_le ha
    · exact (loadFrom_cons_of_lt hlt b l s).trans (ih hlt (by omega) _)
    · rfl

/-- An image of at most 256 bytes is stored from address 0 on (R113). -/
theorem loadImage_of_le {image : List Byte} (h : image.length ≤ Config.memSize) (s : State) :
    loadImage image s = .next (s.setMem (storeBytes image 0 s.mem)) :=
  loadFrom_of_le (by rwa [Nat.zero_add]) s

/-- A longer image is refused at 256 (D19, log 15). -/
theorem loadImage_of_gt {image : List Byte} (h : Config.memSize < image.length) (s : State) :
    loadImage image s = .refused (.loadAddrOutOfRange Config.memSize) :=
  loadFrom_of_gt (Nat.zero_le _) (by rwa [Nat.zero_add]) s

/-- What the loader leaves when it accepts an image. -/
theorem loadImage_next {image : List Byte} {s t : State} :
    loadImage image s = .next t ↔ image.length ≤ Config.memSize ∧ t = s.setMem (storeBytes image 0 s.mem) := by
  obtain hle | hgt := le_or_gt image.length Config.memSize
  · simp [loadImage_of_le, hle, eq_comm]
  · simp [loadImage_of_gt, hgt]

/-- A loaded image stands in memory from address 0 on, byte `k` at address `k`. -/
theorem read_storeBytes_zero {image : List Byte} {m : Memory} (hwf : m.wf = true) (h : image.length ≤ Config.memSize) (a : Nat) :
    (storeBytes image 0 m).read a = image[a]?.getD (m.read a) := by
  simpa only [Nat.zero_add] using read_storeBytes_add hwf (a := 0) (by rwa [Nat.zero_add]) a

/-- Settles O36: an image that fits is stored from address 0 on; one that does not reaches the address 256. -/
theorem loaderFillsMemoryFromZero : Obligations.LoaderFillsMemoryFromZero := fun _ s hwf =>
  ⟨fun hle => ⟨_, loadImage_of_le hle s, rfl, read_storeBytes_zero hwf hle⟩, fun hgt => loadImage_of_gt hgt s⟩

/-- Settles O47: only memory is written, and it stays in canonical form; no more is asked of a Running state. -/
theorem loadingKeepsTheInvariant : Obligations.LoadingKeepsTheInvariant := by
  intro opc image s t hs hinv h
  obtain ⟨hwf, hpc⟩ := (inv_of_running hs).mp hinv
  obtain ⟨hle, rfl⟩ := loadImage_next.mp h
  have ht : (s.setMem (storeBytes image 0 s.mem)).status = .running := hs
  exact ⟨(inv_of_running ht).mpr ⟨storeBytes_wf hwf (by rwa [Nat.zero_add]), hpc⟩, ht⟩

/-! ### A program run -/

/-- A list of one transaction answers what the transaction does. -/
theorem requests_singleton (opc : Opc) (q : Request) (ss : Session) : Session.requests opc [q] ss = ss.request opc q := by
  rw [Session.requests]
  cases ss.request opc q <;> rfl

section
variable {g : Vector Byte 7} {image : List Byte} (opc : Opc) (fuel : Nat)

/-- A program run whose image is accepted is the execution loop from the state the loader left (R114). -/
theorem runProgram_of_loadImage_next {t : State} (h : loadImage image (State.construct g) = .next t) :
    runProgram opc g image fuel = mapNext .started (runWith opc fuel t) := by
  rw [loadImage] at h
  rw [runProgram, Session.construct, requests_imageLoads, h]
  exact requests_singleton opc (.run fuel) (.loading t)

/-- A program run whose image is refused is refused with it: nothing runs (D19). -/
theorem runProgram_of_loadImage_refused {r : Refusal} (h : loadImage image (State.construct g) = .refused r) :
    runProgram opc g image fuel = .refused r := by
  rw [loadImage] at h
  rw [runProgram, Session.construct, requests_imageLoads, h]

end

/-- Settles O54: the loop runs from construction with the image stored from address 0 on, where every cell was 0. -/
theorem aProgramRunIsTheLoopFromItsLoadedImage : Obligations.AProgramRunIsTheLoopFromItsLoadedImage := by
  intro opc g image fuel
  refine ⟨fun hle => ?_, fun hgt => runProgram_of_loadImage_refused opc fuel (loadImage_of_gt hgt _)⟩
  exact ⟨_, rfl, rfl, rfl, read_storeBytes_zero (construct_mem_wf g) hle,
    runProgram_of_loadImage_next opc fuel (loadImage_of_le hle _)⟩

/-! ### The order of the transactions -/

/-- No transaction of a started session is admitted (R114, R116). -/
theorem requests_cons_started_ne_next (opc : Opc) (q : Request) (l : List Request) (t : State) (ss : Session) :
    (Session.started t).requests opc (q :: l) ≠ .next ss := by
  intro h
  obtain ⟨_, hq, -⟩ := requests_cons_next.mp h
  obtain ⟨_, hs, -⟩ := request_next.mp hq
  cases hs

/-- Settles O53: the port refuses the load and the second run as it is written, and so the first of any transactions. -/
theorem nothingIsAdmittedOnceTheRunHasStarted : Obligations.NothingIsAdmittedOnceTheRunHasStarted :=
  ⟨fun _ _ _ => rfl, fun _ _ _ => rfl, requests_cons_started_ne_next⟩

/-- After an admitted transaction the others go on from the session it leaves. -/
theorem requests_cons_of_next {opc : Opc} {ss uu : Session} {q : Request} (h : ss.request opc q = .next uu) (l : List Request) :
    Session.requests opc (q :: l) ss = Session.requests opc l uu := by
  rw [Session.requests, h]

/-- The loads that ask for the writes `ws`, in their order. -/
def loads (ws : List (Nat × Byte)) : List Request := ws.map fun w => .load w.1 w.2

/-- The state with the writes `ws` made to its memory, in their order. -/
def State.afterWrites (s : State) (ws : List (Nat × Byte)) : State :=
  { s with mem := ws.foldl (fun m w => Memory.write m w.1 w.2) s.mem }

/-- Loads at addresses below 256 are admitted before the run, make their writes, and leave the session to what follows (R113). -/
theorem requests_loads (opc : Opc) (rest : List Request) {ws : List (Nat × Byte)} (h : ∀ w ∈ ws, w.1 < Config.memSize)
    (s : State) :
    Session.requests opc (loads ws ++ rest) (.loading s) = Session.requests opc rest (.loading (s.afterWrites ws)) := by
  induction ws generalizing s with
  | nil => rfl
  | cons w ws ih =>
    obtain ⟨hw, hws⟩ := List.forall_mem_cons.mp h
    have hload : (Session.loading s).request opc (.load w.1 w.2) = .next (.loading (s.afterWrites [w])) :=
      request_next.mpr ⟨s, rfl, .inl ⟨w.1, w.2, rfl, hw, rfl⟩⟩
    exact (requests_cons_of_next hload _).trans (ih hws _)

/-- What is admitted before the run is loads at addresses below 256, then at most one run, last (R113, R114, R116). -/
theorem exists_loads_of_requests_next {opc : Opc} {l : List Request} {s : State} {ss : Session}
    (h : Session.requests opc l (.loading s) = .next ss) :
    ∃ ws, (∀ w ∈ ws, w.1 < Config.memSize) ∧
      ((l = loads ws ∧ ss = .loading (s.afterWrites ws)) ∨
        ∃ fuel t, l = loads ws ++ [.run fuel] ∧ runWith opc fuel (s.afterWrites ws) = .next t ∧ ss = .started t) := by
  induction l generalizing s with
  | nil =>
    cases h
    exact ⟨[], nofun, .inl ⟨rfl, rfl⟩⟩
  | cons q l ih =>
    obtain ⟨uu, hq, hl⟩ := requests_cons_next.mp h
    obtain ⟨_, ⟨⟩, ⟨a, v, rfl, ha, rfl⟩ | ⟨fuel, t, rfl, hrun, rfl⟩⟩ := request_next.mp hq
    · obtain ⟨ws, hws, ⟨rfl, rfl⟩ | ⟨fuel, t, rfl, hrun, rfl⟩⟩ := ih hl
      · exact ⟨(a, v) :: ws, List.forall_mem_cons.mpr ⟨ha, hws⟩, .inl ⟨rfl, rfl⟩⟩
      · exact ⟨(a, v) :: ws, List.forall_mem_cons.mpr ⟨ha, hws⟩, .inr ⟨fuel, t, rfl, hrun, rfl⟩⟩
    · cases l with
      | nil =>
        cases hl
        exact ⟨[], nofun, .inr ⟨fuel, t, rfl, hrun, rfl⟩⟩
      | cons q l => exact absurd hl (requests_cons_started_ne_next opc q l t ss)

/-- Settles O52: what is admitted is found by induction on the transactions; loads are admitted, and so is a run after them. -/
theorem onlyLoadsThenOneRunAreAdmitted : Obligations.OnlyLoadsThenOneRunAreAdmitted := by
  intro opc g l ss
  constructor
  · intro h
    obtain ⟨ws, hws, hl⟩ := exists_loads_of_requests_next h
    exact ⟨ws, (State.construct g).afterWrites ws, hws, rfl, hl⟩
  · rintro ⟨ws, s, hws, rfl, ⟨rfl, rfl⟩ | ⟨fuel, t, rfl, hrun, rfl⟩⟩
    · have hloads := requests_loads opc [] hws (State.construct g)
      rw [List.append_nil] at hloads
      exact hloads
    · refine (requests_loads opc [.run fuel] hws (State.construct g)).trans ((requests_singleton opc _ _).trans ?_)
      exact request_next.mpr ⟨_, rfl, .inr ⟨fuel, t, rfl, hrun, rfl⟩⟩

/-! ### Straight-line runs -/

/-- A handler that does not transfer control leaves the pc further on than it was (R67, R70). -/
theorem exec_pc_lt {i : Instr} {s t : State} (hi : isControlTransfer i = false) (h : exec i s = .next t) : s.pc < t.pc := by
  have hpc := pcPolicyOfEveryInstruction i s t h
  cases i with
  | call r | ret | jmp r | jeq r | jne r => cases hi
  | _ => exact Nat.lt_of_lt_of_eq (Nat.lt_add_of_pos_right (by decide)) hpc.symm

/-- A step that does not transfer control halts on an unknown byte or leaves the pc further on than it was. -/
theorem stepWith_pc_lt {opc : Opc} {s t : State} (hi : ∀ i, fetchWith opc s = .ok i → isControlTransfer i = false)
    (h : stepWith opc s = .next t) : t.status ≠ .running ∨ s.pc < t.pc := by
  obtain ⟨i, -, hf, hexec⟩ | ⟨op, -, -, rfl⟩ := stepWith_next h
  · exact .inr (exec_pc_lt (hi i hf) hexec)
  · exact .inl nofun

/-- A run from a state that is not Running has stopped, in that state. -/
theorem stopped_runWith_of_not_running (opc : Opc) (n : Nat) {s : State} (hs : s.status ≠ .running) :
    Stopped (runWith opc n s) := by
  rw [runWith_of_not_running opc n hs]
  exact hs

/-- A straight-line run stops within as many steps as there are cells from its pc on, and one more: each step leaves fewer, and
with none left the opcode fetch aborts. -/
theorem stopped_runWith_of_straightLine {opc : Opc} {n : Nat} {s : State} (h : StraightLine opc (n + 1) s)
    (hpc : Config.memSize ≤ s.pc + n) : Stopped (runWith opc (n + 1) s) := by
  induction n generalizing s with
  | zero =>
    by_cases hs : s.status = .running
    · rw [runWith_succ_of_fault 0 hs (stepWith_of_pc_ge opc hs hpc)]
      trivial
    · exact stopped_runWith_of_not_running opc 1 hs
  | succ n ih =>
    by_cases hs : s.status = .running
    · obtain ⟨hi, hnext⟩ := h hs
      obtain ⟨t, ht⟩ | ⟨e, he⟩ := stepWith_next_or_abort opc hs
      · rw [runWith_succ_of_next (n + 1) hs ht]
        obtain hstop | hlt := stepWith_pc_lt hi ht
        · exact stopped_runWith_of_not_running opc (n + 1) hstop
        · exact ih (hnext t ht) (by omega)
      · rw [runWith_succ_of_fault (n + 1) hs he]
        trivial
    · exact stopped_runWith_of_not_running opc (n + 2) hs

/-- Settles O48: from any pc on there are at most 256 cells. -/
theorem straightLineRunsStopWithin257Steps : Obligations.StraightLineRunsStopWithin257Steps := fun _ s h =>
  stopped_runWith_of_straightLine (n := 256) h (Nat.le_add_left 256 s.pc)

end Sys2Proof.Machine
end

section
/-! SUPPORT. The canonical form of a memory is determined by what it reads as (R31; the representation is log 22): the first cell
stands at the lowest address that does not read as an unlisted cell, and what the other cells read as follows from the whole. -/

namespace Sys2Proof.Machine

/-- The first cell of a memory reads as its byte. -/
theorem Memory.read_head (a : Nat) (v : Byte) (m : Memory) : Memory.read ((a, v) :: m) a = v := if_pos rfl

/-- In canonical form the first listed address does not read as an unlisted cell. -/
theorem Memory.read_head_ne {a : Nat} {v : Byte} {m : Memory} (hwf : Memory.wf ((a, v) :: m) = true) :
    Memory.read ((a, v) :: m) a ≠ Config.unlistedByte := by
  obtain ⟨-, hv, -, -⟩ := Memory.wf_cons.mp hwf
  rwa [Memory.read_head]

/-- What does not read as an unlisted cell is at or above the first listed address. -/
theorem Memory.head_le_of_read_ne {b : Nat} {w : Byte} {m : Memory} (hwf : Memory.wf ((b, w) :: m) = true) {a : Nat}
    (h : Memory.read ((b, w) :: m) a ≠ Config.unlistedByte) : b ≤ a := by
  obtain ⟨-, -, hlt, -⟩ := Memory.wf_cons.mp hwf
  refine Nat.le_of_not_lt fun hab => h (Memory.read_below fun c hc => ?_)
  obtain rfl | hc := List.mem_cons.mp hc
  · exact hab
  · exact Nat.lt_trans hab (hlt c hc)

/-- The cells after the first read as the whole memory does, except that the first cell's address is not listed there. -/
theorem Memory.read_tail {a : Nat} {v : Byte} {m : Memory} (hwf : Memory.wf ((a, v) :: m) = true) (c : Nat) :
    m.read c = if a = c then Config.unlistedByte else Memory.read ((a, v) :: m) c := by
  obtain ⟨-, -, hlt, -⟩ := Memory.wf_cons.mp hwf
  split
  case isTrue hac => exact Memory.read_below (hac ▸ hlt)
  case isFalse hac => exact (if_neg hac).symm

/-- Settles O35, by induction on the cells: each first address is at or below the other, so they are one address with one byte,
and the cells after them read alike again. -/
theorem canonicalMemoriesThatReadAlikeAreEqual : Obligations.CanonicalMemoriesThatReadAlikeAreEqual := by
  intro m
  induction m with
  | nil =>
    intro n _ hn h
    cases n with
    | nil => rfl
    | cons d n => exact absurd (h d.1).symm (Memory.read_head_ne hn)
  | cons c m ih =>
    obtain ⟨a, v⟩ := c
    intro n hm hn h
    cases n with
    | nil => exact absurd (h a) (Memory.read_head_ne hm)
    | cons d n =>
      obtain ⟨b, w⟩ := d
      have hab : a = b := Nat.le_antisymm (Memory.head_le_of_read_ne hm (h b ▸ Memory.read_head_ne hn))
        (Memory.head_le_of_read_ne hn (h a ▸ Memory.read_head_ne hm))
      subst hab
      have hvw : v = w := by simpa only [Memory.read_head] using h a
      obtain ⟨-, -, -, hm'⟩ := Memory.wf_cons.mp hm
      obtain ⟨-, -, -, hn'⟩ := Memory.wf_cons.mp hn
      have htail : m = n := ih n hm' hn' fun c => by rw [Memory.read_tail hm, Memory.read_tail hn, h c]
      rw [hvw, htail]

end Sys2Proof.Machine
end

section
/-! SUPPORT. The default opcode table (R52; the byte values are log 2): each of its words is an encoding, which decodes to its
instruction under any injective `OPC`, and the unknown bytes are those the table does not list (R57). -/

namespace Sys2Proof

/-- The decoder gives back a default encoding's instruction and leaves no byte. -/
theorem decode_encode (i : Instr) : decode (encode i) = .ok (i, []) := by
  have h := decodeOfEncodeIsTheInstruction defaultOpc i [] defaultOpc_injective
  rwa [List.append_nil] at h

/-- The bytes that name no instruction are those outside the table of opcodes (R57). -/
theorem lookupOpcode_none_iff_notMem {opc : Opc} {op : Byte} :
    lookupOpcode opc op = none ↔ op ∉ Mnemonic.catalog.map opc := by
  simp only [lookupOpcode_none, List.mem_map, mem_catalog, true_and, not_exists, ne_eq]

/-- The subtract byte that the catalog leaves out (R57) is no default opcode. -/
theorem defaultOpc_ne_A1 (m : Mnemonic) : defaultOpc m ≠ 0xA1#8 := by cases m <;> decide

/-- Settles O4: each word is the encoding of its instruction, 0xA1 is no opcode, and the fourteen bytes are the table's. -/
theorem defaultOpcodeWordsDecode : Obligations.DefaultOpcodeWordsDecode :=
  ⟨decode_encode .nop, decode_encode .hlt, decode_encode (.ldi 3#8 255#8), decode_encode (.prn 6#8),
    decode_encode (.add 1#8 2#8), decode_encode (.mul 1#8 2#8), decode_encode (.cmp 1#8 2#8), decode_encode (.push 5#8),
    decode_encode (.pop 5#8), decode_encode (.call 4#8), decode_encode .ret, decode_encode (.jmp 4#8), decode_encode (.jeq 4#8),
    decode_encode (.jne 4#8), decodeWith_error.mpr (decodeBy_unknownOpcode.mpr ⟨rfl, lookupOpcode_none.mpr defaultOpc_ne_A1⟩),
    fun _ => lookupOpcode_none_iff_notMem⟩

end Sys2Proof
end
